-- ==== Sys2Proof/Word.lean ====
section
/-! DEFINITION. The word types of the LS-8 core (spec/10_state.md R20): bytes, the 9-bit program counter and the 3-bit Flags field. -/

namespace Sys2Proof

/-- An 8-bit register, memory byte or instruction byte: an unsigned value 0 to 255 (R7, R21, R50). -/
abbrev Byte := BitVec 8

/-- The program counter: 9 bits, values 0 to 511, never masked to 8 bits (R29, D5). -/
abbrev Pc := BitVec 9

/-- The Flags field FL: 3 bits (R28, D11). -/
abbrev FlagBits := BitVec 3

end Sys2Proof
end

