-- ==== Sys2Proof/Config.lean ====
section
/-! DEFINITION. What the spec leaves to the platform: the launch parameters of R6 with the values State.reset takes, and the free values. N = 8 is the only admitted width (R5, D1), so the sizes 256, 8 and 0xFF stand as numerals. -/

namespace Sys2Proof

/-- The open launch parameters of R6 and R36: `reg_init` for R0 to R6 (D2) and `SP_INIT` for R7 (D3).
They are arguments, not state: a statement about every `Launch` is one about every choice. -/
structure Launch where
  regInit : Vector Byte 7
  spInit  : Byte
deriving DecidableEq, Repr

namespace Config

/-- The launch parameters State.reset takes: R0 to R6 zero (DESIGN CHOICE, unsafe, log 1) and SP_INIT at the
spec's own default 0xF4 (DESIGN CHOICE, unsafe, log 2). -/
def defaultLaunch : Launch := ⟨#v[0x00#8, 0x00#8, 0x00#8, 0x00#8, 0x00#8, 0x00#8, 0x00#8], 0xF4#8⟩

/-- What a memory byte nothing has written reads as (`mem_init`, D4, R64). DESIGN CHOICE, unsafe, log 3. -/
def unlistedByte : Byte := 0x00#8

/-- FREE VALUE (log 7): stands in the decode window for an operand byte at address `a` ≥ 256, which does not
exist. A handler that would read it faults first (R104), so it reaches no result. -/
opaque absentByte : Nat → Byte

/-- FREE VALUE (log 15): `host_rdata` in clock cycle `n` while `busy` = 1, which R237 calls undefined. -/
opaque busyReadData : Nat → Byte

/-- FREE VALUE (log 15): `out_data` in clock cycle `n` while `out_valid` = 0 (R237: "valid with out_valid"). -/
opaque idleOutData : Nat → Byte

end Config

end Sys2Proof
end

