-- ==== Sys2Proof/Syntax.lean ====
section
/-! DEFINITION. The instructions of the LS-8 core: one constructor per row of spec/opcode_table.json (R2, R78). -/

namespace Sys2Proof

/-- An instruction with its operand bytes as they stand in memory (R75): an operand is a whole byte, `d` = op1
and `s` or `imm` = op2. A register index is NOT cut to 3 bits: an index of 8 or more is a legal byte that faults
when the handler uses it. The reserved no-ops keep the bytes they ignore. -/
inductive Instr where
  | hlt
  | ret
  | push (d : Byte)
  | pop (d : Byte)
  | prn (d : Byte)
  | call (d : Byte)
  | jmp (d : Byte)
  | jeq (d : Byte)
  | jne (d : Byte)
  | not (d : Byte)
  | ldi (d : Byte) (imm : Byte)
  | add (d : Byte) (s : Byte)
  | mul (d : Byte) (s : Byte)
  | xor (d : Byte) (s : Byte)
  | mod (d : Byte) (s : Byte)
  | cmp (d : Byte) (s : Byte)
  | and (d : Byte) (s : Byte)
  | or (d : Byte) (s : Byte)
  | shl (d : Byte) (s : Byte)
  | shr (d : Byte) (s : Byte)
deriving DecidableEq, Repr

end Sys2Proof
end

