-- ==== Sys2Proof/WellFormed.lean ====
section
/-! DEFINITION. Well-formedness, each part a check that can fail: the register operands an instruction uses name a register (R75), and a program image fits the memory (R265). The decoder and the machine do NOT require the first: an index of 8 or more decodes, and faults when used. -/

namespace Sys2Proof

/-- The byte names one of the registers R0 to R7 (R22: "A register index must be in [0, 8)"). -/
def validRegIndex (i : Byte) : Bool := i.toNat < 8

/-- Every operand byte the instruction uses as a register index names a register (R75, R78). The operands of the
reserved no-ops are ignored and may be any byte (R150); LDI's op2 is an immediate. -/
def Instr.wellFormed : Instr → Bool
  | .hlt => true
  | .ret => true
  | .push d => validRegIndex d
  | .pop d => validRegIndex d
  | .prn d => validRegIndex d
  | .call d => validRegIndex d
  | .jmp d => validRegIndex d
  | .jeq d => validRegIndex d
  | .jne d => validRegIndex d
  | .not _ => true
  | .ldi d _ => validRegIndex d
  | .add d s => validRegIndex d && validRegIndex s
  | .mul d s => validRegIndex d && validRegIndex s
  | .xor d s => validRegIndex d && validRegIndex s
  | .mod _ _ => true
  | .cmp d s => validRegIndex d && validRegIndex s
  | .and _ _ => true
  | .or _ _ => true
  | .shl _ _ => true
  | .shr _ _ => true

/-- A program image has at most 256 bytes; a longer one "is refused as a whole" (R265, D17). -/
def imageFits (image : List Byte) : Bool := image.length ≤ 256

end Sys2Proof
end

