-- ==== Sys2Proof/Decode.lean ====
section
/-! DEFINITION. The dispatch ROM (R32, R78), the decoder from bytes, total and rejecting by name (R72, R80), and the encoder written from the same table. -/

namespace Sys2Proof

/-- The handler ids of the dispatch ROM: "one of 20 handler ids" (R32), which are the mnemonics (R78). -/
inductive HandlerId where
  | hlt | ret | push | pop | prn | call | jmp | jeq | jne | not
  | ldi | add | mul | xor | mod | cmp | and | or | shl | shr
deriving DecidableEq, Repr

/-- One row of R78: the opcode byte and the metadata the ROM stores for it. -/
structure RomRow where
  opcode       : Byte
  operandCount : BitVec 2
  controlsPc   : Bool
deriving DecidableEq, Repr

/-- The dispatch ROM's contents, row by row as R78 lists them. The opcodes of NOT, MOD, AND, OR, SHL and SHR are
the spec's assignment R79, from general knowledge (PRESUMED, log 8). -/
def HandlerId.row : HandlerId → RomRow
  | .hlt  => ⟨0b00000001#8, 0, false⟩
  | .ret  => ⟨0b00010001#8, 0, true⟩
  | .push => ⟨0b01000101#8, 1, false⟩
  | .pop  => ⟨0b01000110#8, 1, false⟩
  | .prn  => ⟨0b01000111#8, 1, false⟩
  | .call => ⟨0b01010000#8, 1, true⟩
  | .jmp  => ⟨0b01010100#8, 1, true⟩
  | .jeq  => ⟨0b01010101#8, 1, true⟩
  | .jne  => ⟨0b01010110#8, 1, true⟩
  | .not  => ⟨0b01101001#8, 1, false⟩
  | .ldi  => ⟨0b10000010#8, 2, false⟩
  | .add  => ⟨0b10100000#8, 2, false⟩
  | .mul  => ⟨0b10100010#8, 2, false⟩
  | .xor  => ⟨0b10100011#8, 2, false⟩
  | .mod  => ⟨0b10100100#8, 2, false⟩
  | .cmp  => ⟨0b10100111#8, 2, false⟩
  | .and  => ⟨0b10101000#8, 2, false⟩
  | .or   => ⟨0b10101010#8, 2, false⟩
  | .shl  => ⟨0b10101100#8, 2, false⟩
  | .shr  => ⟨0b10101101#8, 2, false⟩

/-- The twenty handlers, in the order of R78. -/
def HandlerId.all : List HandlerId :=
  [.hlt, .ret, .push, .pop, .prn, .call, .jmp, .jeq, .jne, .not,
   .ldi, .add, .mul, .xor, .mod, .cmp, .and, .or, .shl, .shr]

/-- The dispatch ROM as a constant function of the opcode byte: `none` is an entry whose valid bit is 0 (R32, R80).
Nothing writes it, so it is no field of State (log 11). -/
def dispatchRom (opc : Byte) : Option HandlerId :=
  HandlerId.all.find? (fun h => h.row.opcode == opc)

/-- The operand count as the opcode's own bits 7:6 (R72). -/
def operandCountBits (opc : Byte) : BitVec 2 := opc.extractLsb' 6 2

/-- The controls_pc bit, bit 4 of the opcode (R73). -/
def controlsPcBit (opc : Byte) : Bool := opc.getLsbD 4

/-- The instruction a handler id stands for with the operand bytes `op1` and `op2` (R78's op1 and op2 columns).
A handler with fewer operands drops the rest. -/
def HandlerId.instr (h : HandlerId) (op1 op2 : Byte) : Instr :=
  match h with
  | .hlt  => .hlt
  | .ret  => .ret
  | .push => .push op1
  | .pop  => .pop op1
  | .prn  => .prn op1
  | .call => .call op1
  | .jmp  => .jmp op1
  | .jeq  => .jeq op1
  | .jne  => .jne op1
  | .not  => .not op1
  | .ldi  => .ldi op1 op2
  | .add  => .add op1 op2
  | .mul  => .mul op1 op2
  | .xor  => .xor op1 op2
  | .mod  => .mod op1 op2
  | .cmp  => .cmp op1 op2
  | .and  => .and op1 op2
  | .or   => .or op1 op2
  | .shl  => .shl op1 op2
  | .shr  => .shr op1 op2

/-- Why a byte sequence is not decoded. -/
inductive DecodeError where
  /-- There is no byte at all. -/
  | noBytes
  /-- The first byte is none of the twenty opcodes of R78 (R80); no operand byte is looked at. -/
  | invalidOpcode (opc : Byte)
  /-- The opcode is valid and its operand bytes are not all there. -/
  | truncated (opc : Byte)
deriving DecidableEq, Repr

/-- Decode the first instruction of a byte sequence, and give the bytes after it. The length follows from the first
byte alone (R72); the operand bytes never change which instruction it is (R81). -/
def decode : List Byte → Except DecodeError (Instr × List Byte)
  | [] => .error .noBytes
  | opc :: rest =>
    match dispatchRom opc with
    | none => .error (.invalidOpcode opc)
    | some h =>
      match h.row.operandCount.toNat, rest with
      | 0, rest => .ok (h.instr 0 0, rest)
      | 1, b1 :: rest => .ok (h.instr b1 0, rest)
      | 2, b1 :: b2 :: rest => .ok (h.instr b1 b2, rest)
      | _, _ => .error (.truncated opc)

/-- The handler an instruction is dispatched to (R109). -/
def Instr.handler : Instr → HandlerId
  | .hlt => .hlt
  | .ret => .ret
  | .push _ => .push
  | .pop _ => .pop
  | .prn _ => .prn
  | .call _ => .call
  | .jmp _ => .jmp
  | .jeq _ => .jeq
  | .jne _ => .jne
  | .not _ => .not
  | .ldi _ _ => .ldi
  | .add _ _ => .add
  | .mul _ _ => .mul
  | .xor _ _ => .xor
  | .mod _ _ => .mod
  | .cmp _ _ => .cmp
  | .and _ _ => .and
  | .or _ _ => .or
  | .shl _ _ => .shl
  | .shr _ _ => .shr

/-- The operand bytes of an instruction in address order (R55, R71). -/
def Instr.operands : Instr → List Byte
  | .hlt => []
  | .ret => []
  | .push d => [d]
  | .pop d => [d]
  | .prn d => [d]
  | .call d => [d]
  | .jmp d => [d]
  | .jeq d => [d]
  | .jne d => [d]
  | .not d => [d]
  | .ldi d imm => [d, imm]
  | .add d s => [d, s]
  | .mul d s => [d, s]
  | .xor d s => [d, s]
  | .mod d s => [d, s]
  | .cmp d s => [d, s]
  | .and d s => [d, s]
  | .or d s => [d, s]
  | .shl d s => [d, s]
  | .shr d s => [d, s]

/-- The encoder: the opcode byte of R78 and then the operand bytes, at ascending addresses (R70, R71). -/
def encode (i : Instr) : List Byte := i.handler.row.opcode :: i.operands

/-- The longest instruction has three bytes (R70). The bytes of a word numbered as spec/opcode_table.json numbers
it: bit 0 is the least significant bit of the first byte, the second byte is bits 15..8. Bits at `nbits` and above
are 0. -/
def tableWordBytes (nbits w : Nat) : List Byte :=
  let v := w % 2 ^ nbits
  [BitVec.ofNat 8 v, BitVec.ofNat 8 (v / 2 ^ 8), BitVec.ofNat 8 (v / 2 ^ 16)]

/-- What the decoder reads from a word of the opcode table (the host's question). -/
def decodeTableWord (nbits w : Nat) : Option Instr :=
  match decode (tableWordBytes nbits w) with
  | .ok (i, _) => some i
  | .error _ => none

end Sys2Proof
end

