-- ==== Sys2Proof/Machine/State.lean ====
section
/-! DEFINITION. The architectural state of the LS-8 core (R20), its reset, and the reasons a step can stop. -/

namespace Sys2Proof.Machine

/-- Why the machine stopped: the six values of the 3-bit `halt_cause` register (R31, D8). The values 6 and 7 "are
never written" and have no constructor (log 21). -/
inductive HaltCause where
  /-- 0 NONE: still running, or never stopped. -/
  | none
  /-- 1 HLT: the normal end. -/
  | hlt
  /-- 2 INVALID_INSTRUCTION: the opcode is not in the dispatch ROM. -/
  | invalidInstruction
  /-- 3 OUT_OF_BOUNDS: an address or register index outside its range. -/
  | outOfBounds
  /-- 4 UNSUPPORTED_OPERATION: the ALU was asked for an operation it does not have; no run reaches it (R224). -/
  | unsupportedOperation
  /-- 5 ABORTED: the host's abort. -/
  | aborted
deriving DecidableEq, Repr

/-- The 256-byte memory as (address, byte) pairs, in the canonical form `Memory.wf` of Ops.lean. -/
abbrev Memory := List Host.Cell

/-- The architectural state: "exactly" the list of R20 (the dispatch ROM is the constant `dispatchRom`, log 11), and
the list of emitted bytes R238 tells a model to keep. -/
structure State where
  /-- `x[0]` to `x[7]`, R0 to R7; R7 is the stack pointer (R21, R23). -/
  regs : Vector Byte 8
  /-- Flags (R26, R28). -/
  fl : FlagBits
  /-- The address of the opcode byte about to execute (R29). -/
  pc : Pc
  /-- RUNNING exactly when true (R30, R100). -/
  running : Bool
  /-- Why `running` became false (R31). -/
  haltCause : HaltCause
  /-- `M[0..255]` (R50). -/
  mem : Memory
  /-- The bytes PRN has emitted in this run, oldest first (R238, log 5). -/
  output : List Byte
deriving DecidableEq, Repr

/-- The model's step never faults: every fatal condition of the spec is a next state in which the machine is halted
(R221, R222, log 6). There is no reason to stop, so this type has no constructor. -/
inductive Fault : Type
deriving DecidableEq, Repr

/-- Why the model declines an action. -/
inductive Refusal where
  /-- Raised by `exec` for an instruction without a meaning. Safe: the model stops. No arm of `exec` raises it. -/
  | notModelled (mnemonic : String)
  /-- Raised by the host operation `loadImage` for a program image of more than 256 bytes, which R265 says "is refused
  as a whole". Safe: no step is started from it. No instruction raises it. -/
  | imageTooLong (length : Nat)
deriving DecidableEq, Repr

/-- The machine as reset leaves it, for launch parameters `L` and memory contents `m` (R36, R260, R261). -/
def State.launch (L : Launch) (m : Memory) : State where
  regs := L.regInit.push L.spInit
  fl := 0
  pc := 0
  running := true
  haltCause := .none
  mem := m
  output := []

/-- The machine right after the first reset, with nothing loaded: the launch parameters the log names (logs 1, 2) and
no memory byte written (log 3). -/
def State.reset : State := State.launch Config.defaultLaunch []

end Sys2Proof.Machine
end

