-- ==== Sys2Proof/Machine/Ops.lean ====
section
/-! DEFINITION. The named operations over memory and registers (the primitives of R8), the stack-pointer arithmetic (R171, R172), taking a fatal fault (R221, R222), and the end of a step (R101, steps 3 and 4). -/

namespace Sys2Proof.Machine

/-- A handler's statement either goes on or raises a fault (R8 `raise`). -/
abbrev Result (α : Type) := Except HaltCause α

/-- The 3-bit code of a halt cause on the `halt_cause` output (R31, D8). -/
def HaltCause.code : HaltCause → BitVec 3
  | .none => 0
  | .hlt => 1
  | .invalidInstruction => 2
  | .outOfBounds => 3
  | .unsupportedOperation => 4
  | .aborted => 5

/-! ### Memory -/

/-- The canonical form: addresses strictly rising, each below 256 (R50), and no entry equal to what an unlisted
address reads as. Equal contents are then equal lists. -/
abbrev Memory.wf (m : Memory) : Prop :=
  m.Pairwise (fun c d => c.1 < d.1) ∧ ∀ c ∈ m, c.1 < 256 ∧ c.2 ≠ Config.unlistedByte

/-- The byte at an address (R51); an unlisted address reads as `Config.unlistedByte` (log 3). -/
def Memory.read : Memory → Nat → Byte
  | [], _ => Config.unlistedByte
  | (b, v) :: m, a => if a = b then v else Memory.read m a

/-- Put a listed byte at an address, keeping the addresses rising. -/
def Memory.put : Memory → Nat → Byte → Memory
  | [], a, v => [(a, v)]
  | (b, w) :: m, a, v =>
    if a < b then (a, v) :: (b, w) :: m
    else if a = b then (a, v) :: m
    else (b, w) :: Memory.put m a v

/-- Write a byte (R52); writing what an unlisted address reads as removes the entry, so the form stays canonical. -/
def Memory.write (m : Memory) (a : Nat) (v : Byte) : Memory :=
  if v = Config.unlistedByte then m.filter (fun c => c.1 ≠ a) else m.put a v

/-- Consecutive bytes written from address `a` upward, as the host's program load writes them (R263). -/
def Memory.store (m : Memory) (a : Nat) : List Byte → Memory
  | [] => m
  | b :: bs => Memory.store (m.write a b) (a + 1) bs

/-- `MemRead(a, 1)` (R8, R51): OutOfBounds from address 256 on; no side effect (R53). -/
def memRead (s : State) (a : Nat) : Result Byte :=
  if 256 ≤ a then .error .outOfBounds else .ok (s.mem.read a)

/-- `MemWrite(a, 1, v)` (R8, R52): OutOfBounds from address 256 on, else the byte receives `v mod 256`. -/
def memWrite (s : State) (a v : Nat) : Result State :=
  if 256 ≤ a then .error .outOfBounds else .ok { s with mem := s.mem.write a (BitVec.ofNat 8 v) }

/-! ### Registers -/

/-- The value of register `r`. -/
def State.reg (s : State) (r : Fin 8) : Byte := s.regs[r.val]

/-- The state with register `r` at `v`. -/
def State.setReg (s : State) (r : Fin 8) (v : Byte) : State := { s with regs := s.regs.set r.val v }

/-- SP "is another name for x[7]" (R8, R23). -/
def State.sp (s : State) : Byte := s.reg 7

/-- `x[i]` read by an operand byte (R8, R22): OutOfBounds when the index is 8 or more. -/
def readReg (s : State) (i : Byte) : Result Byte :=
  if h : i.toNat < 8 then .ok (s.reg ⟨i.toNat, h⟩) else .error .outOfBounds

/-- `x[i] <- v` (R8, R22): OutOfBounds when the index is 8 or more, else the register receives `v mod 256`. -/
def writeReg (s : State) (i : Byte) (v : Nat) : Result State :=
  if h : i.toNat < 8 then .ok (s.setReg ⟨i.toNat, h⟩ (BitVec.ofNat 8 v)) else .error .outOfBounds

/-- `sp_dec()` of PUSH and CALL (R171): no wrap, OutOfBounds at SP = 0. -/
def spDec (s : State) : Result State :=
  if s.sp.toNat < 1 then .error .outOfBounds else .ok (s.setReg 7 (BitVec.ofNat 8 (s.sp.toNat - 1)))

/-- `sp_inc()` of POP and RET (R172): no wrap, OutOfBounds at SP = 255. -/
def spInc (s : State) : Result State :=
  if 255 < s.sp.toNat + 1 then .error .outOfBounds else .ok (s.setReg 7 (BitVec.ofNat 8 (s.sp.toNat + 1)))

/-! ### Control and output -/

/-- `pc <- target` by a handler, where the target is a byte (R29, R195). -/
def State.jump (s : State) (target : Byte) : State := { s with pc := target.setWidth 9 }

/-- The pc moved on by `n` bytes, not masked to 8 bits (R29, R105). -/
def State.advance (s : State) (n : Nat) : State := { s with pc := s.pc + BitVec.ofNat 9 n }

/-- `emit(v)` (R8, R238). -/
def State.emit (s : State) (v : Byte) : State := { s with output := s.output ++ [v] }

/-- `halt(cause)` (R8): `running <- false`, `halt_cause <- cause`. -/
def State.halt (s : State) (c : HaltCause) : State := { s with running := false, haltCause := c }

/-! ### Taking a fatal fault

There is no handler, no vector and no return: "There is no trap return and no nesting" (R229). The one way out of
HALTED is reset (`State.reinit` of HostPort.lean). -/

/-- Fault entry, applied to the state the faulting step began with. OutOfBounds and UnsupportedOperation halt the
machine and commit nothing, pc included (R221); InvalidInstruction also sets pc to 0 (R222). -/
def State.takeFault (s : State) (c : HaltCause) : State :=
  match c with
  | .invalidInstruction => { s.halt c with pc := 0 }
  | _ => s.halt c

/-- The end of a step that began in `s` and whose handler gave `r` (R101 steps 3 and 4): a fault is taken from `s`,
so that none of the handler's writes remain (R9); else the pc advances by operand_count + 1 if the ROM's controls_pc
bit is clear (R105). -/
def complete (h : HandlerId) (s : State) (r : Result State) : Host.Outcome State Fault Refusal :=
  match r with
  | .error c => .next (s.takeFault c)
  | .ok t => .next (if h.row.controlsPc then t else t.advance (h.row.operandCount.toNat + 1))

end Sys2Proof.Machine
end

