-- ==== Sys2Proof/Machine/Flags.lean ====
section
/-! DEFINITION. The Flags field: its values and bits (R26, R28), the compare function, which alone writes it (R27, R143), and the test of the conditional branches. -/

namespace Sys2Proof.Machine

/-- 0, "unset": held only from reset to the first compare (R28). -/
def flUnset : FlagBits := 0b000#3
/-- 1, EQUAL: bit 0 (R28). -/
def flEqual : FlagBits := 0b001#3
/-- 2, GREATER: bit 1 (R28). -/
def flGreater : FlagBits := 0b010#3
/-- 4, LESS: bit 2 (R28). -/
def flLess : FlagBits := 0b100#3

/-- FL holds one of the source's values 0, 1, 2, 4 (R26); "The values 3, 5, 6 and 7 are never held" (R28). -/
def legalFlags (f : FlagBits) : Bool := f == flUnset || f == flEqual || f == flGreater || f == flLess

/-- `compare(a, b)` (R143), unsigned. -/
def aluCompare (a b : Byte) : FlagBits :=
  if a.toNat = b.toNat then flEqual else if a.toNat > b.toNat then flGreater else flLess

/-- `FL <- f` (R8). Flags has no register index, so no register write reaches it (R26). -/
def State.setFlags (s : State) (f : FlagBits) : State := { s with fl := f }

/-- The condition JEQ takes and JNE does not: FL = EQUAL (R193, R194). -/
def State.flagsEqual (s : State) : Bool := s.fl == flEqual

end Sys2Proof.Machine
end

