-- ==== Sys2Proof/Machine/Alu.lean ====
section
/-! DEFINITION. The ALU as a pure function (R140 to R145). -/

namespace Sys2Proof.Machine

/-- An operation code the ALU can be asked for. `unrecognised` stands for every code other than the four: asking for
it is the ALU's "sole recognized error" (R140, R145). No instruction asks for it (log 10). -/
inductive AluOp where
  | add | mul | cmp | xor | unrecognised
deriving DecidableEq, Repr

/-- "a result byte, a Flags value, or both" (R140). -/
structure AluResult where
  result : Option Nat
  flags  : Option FlagBits
deriving DecidableEq, Repr

/-- `add(a, b) = (a + b) mod 256` (R141). -/
def aluAdd (a b : Byte) : Nat := (a.toNat + b.toNat) % 256

/-- `multiply(a, b) = (a * b) mod 256` (R142). -/
def aluMul (a b : Byte) : Nat := (a.toNat * b.toNat) % 256

/-- The result byte of `xor(a, b)`: 0 if the comparison gives EQUAL, else 1. Not a bitwise XOR (R144). -/
def aluXor (a b : Byte) : Nat := if aluCompare a b = flEqual then 0 else 1

/-- `alu(op, a, b)` (R140): writes no state. -/
def alu (op : AluOp) (a b : Byte) : Result AluResult :=
  match op with
  | .add => .ok ⟨some (aluAdd a b), none⟩
  | .mul => .ok ⟨some (aluMul a b), none⟩
  | .cmp => .ok ⟨none, some (aluCompare a b)⟩
  | .xor => .ok ⟨some (aluXor a b), some (aluCompare a b)⟩
  | .unrecognised => .error .unsupportedOperation

end Sys2Proof.Machine
end

