-- ==== Sys2Proof/Machine/Operands.lean ====
section
/-! DEFINITION. The operand forms (R75, R104): an operand byte read at pc + 1 or pc + 2, as a register index or as an immediate. -/

namespace Sys2Proof.Machine

/-- `op1` = `MemRead(pc + 1, 1)` (R8, R104). `b` is the byte the instruction carries there; the read raises OutOfBounds
where pc + 1 is no address. A handler that does not call this does not read the operand. -/
def operand1 (s : State) (b : Byte) : Result Byte :=
  if 256 ≤ s.pc.toNat + 1 then .error .outOfBounds else .ok b

/-- `op2` = `MemRead(pc + 2, 1)` (R8, R104). -/
def operand2 (s : State) (b : Byte) : Result Byte :=
  if 256 ≤ s.pc.toNat + 2 then .error .outOfBounds else .ok b

/-- An immediate operand, masked with 0xFF as LDI's is: "imm & 0xFF", the byte itself at N = 8 (R77). -/
def immediate (b : Byte) : Nat := b.toNat % 256

end Sys2Proof.Machine
end

