-- ==== Sys2Proof/Machine/Arith.lean ====
section
/-! DEFINITION. The instructions that use the ALU: ADD, MUL, CMP and XOR (spec/42_alu.md, R146 to R149). -/

namespace Sys2Proof.Machine

/-- The Flags part of an ALU answer, if there is one. -/
def writeFlags (s : State) (f : Option FlagBits) : State :=
  match f with
  | some f => s.setFlags f
  | none => s

/-- Write an ALU answer back: Flags first, then the destination register, each only if the ALU gave it (R140, R149). -/
def writeBack (s : State) (d : Byte) (r : AluResult) : Result State :=
  match r.result with
  | some v => writeReg (writeFlags s r.flags) d v
  | none => .ok (writeFlags s r.flags)

/-- The handler shared by the four: read op1 and op2, read both registers, ask the ALU, write back (R146 to R149). -/
def aluHandler (op : AluOp) (d s : Byte) (st : State) : Result State := do
  let d ← operand1 st d
  let s ← operand2 st s
  let a ← readReg st d
  let b ← readReg st s
  let r ← alu op a b
  writeBack st d r

/-- ADD d, s (R146): `x[d] <- (x[d] + x[s]) mod 256`. No flags. -/
def execAdd (d s : Byte) (st : State) : Host.Outcome State Fault Refusal :=
  complete .add st (aluHandler .add d s st)

/-- MUL d, s (R147): `x[d] <- (x[d] * x[s]) mod 256`. op2 is a register (R76, C1). No flags. -/
def execMul (d s : Byte) (st : State) : Host.Outcome State Fault Refusal :=
  complete .mul st (aluHandler .mul d s st)

/-- CMP d, s (R148): `FL <- compare(x[d], x[s])`. No register changes. -/
def execCmp (d s : Byte) (st : State) : Host.Outcome State Fault Refusal :=
  complete .cmp st (aluHandler .cmp d s st)

/-- XOR d, s (R149): `FL <- compare(x[d], x[s])`, then `x[d] <- 0` if EQUAL, else 1. -/
def execXor (d s : Byte) (st : State) : Host.Outcome State Fault Refusal :=
  complete .xor st (aluHandler .xor d s st)

end Sys2Proof.Machine
end

