-- ==== Sys2Proof/Machine/Control.lean ====
section
/-! DEFINITION. CALL, RET, JMP, JEQ and JNE (spec/44_control_transfer.md, R190 to R195). All have controls_pc = 1, so every path writes pc. -/

namespace Sys2Proof.Machine

/-- CALL d (R190): `mem[--SP] = pc + 2; pc = x[d]`, with `x[d]` read after the decrement; the return address is
stored mod 256. -/
def execCall (d : Byte) (s : State) : Host.Outcome State Fault Refusal :=
  complete .call s do
    let d ← operand1 s d
    let s ← spDec s
    let s ← memWrite s s.sp.toNat (s.pc.toNat + 2)
    let v ← readReg s d
    .ok (s.jump v)

/-- RET (R191): `pc = mem[SP]; SP += 1`. -/
def execRet (s : State) : Host.Outcome State Fault Refusal :=
  complete .ret s do
    let v ← memRead s s.sp.toNat
    let s ← spInc s
    .ok (s.jump v)

/-- The effect of JMP, and of a taken JEQ or JNE (R192 to R194): `pc <- x[d]`. -/
def jumpThrough (d : Byte) (s : State) : Result State := do
  let d ← operand1 s d
  let v ← readReg s d
  .ok (s.jump v)

/-- JMP d (R192). -/
def execJmp (d : Byte) (s : State) : Host.Outcome State Fault Refusal :=
  complete .jmp s (jumpThrough d s)

/-- JEQ d (R193): jump if FL = EQUAL, else `pc <- pc + 2` with neither the operand nor a register read (D22). -/
def execJeq (d : Byte) (s : State) : Host.Outcome State Fault Refusal :=
  complete .jeq s (if s.flagsEqual then jumpThrough d s else .ok (s.advance 2))

/-- JNE d (R194): jump if FL ≠ EQUAL, else `pc <- pc + 2` with neither the operand nor a register read (D22). -/
def execJne (d : Byte) (s : State) : Host.Outcome State Fault Refusal :=
  complete .jne s (if s.flagsEqual then .ok (s.advance 2) else jumpThrough d s)

end Sys2Proof.Machine
end

