-- ==== Sys2Proof/Machine/LoadOutputHalt.lean ====
section
/-! DEFINITION. LDI, PRN and HLT (spec/41_load_output_halt.md, R120 to R122). -/

namespace Sys2Proof.Machine

/-- LDI d, imm (R120): `x[d] <- imm & 0xFF`. No flags. -/
def execLdi (d imm : Byte) (s : State) : Host.Outcome State Fault Refusal :=
  complete .ldi s do
    let d ← operand1 s d
    let imm ← operand2 s imm
    writeReg s d (immediate imm)

/-- PRN d (R121): `emit(x[d])`. On a fault nothing is emitted. -/
def execPrn (d : Byte) (s : State) : Host.Outcome State Fault Refusal :=
  complete .prn s do
    let d ← operand1 s d
    let v ← readReg s d
    .ok (s.emit v)

/-- HLT (R122): `halt(HLT)`; the advance follows it, so pc ends one past the HLT byte (R106). -/
def execHlt (s : State) : Host.Outcome State Fault Refusal :=
  complete .hlt s (.ok (s.halt .hlt))

end Sys2Proof.Machine
end

