-- ==== Sys2Proof/Machine/Reserved.lean ====
section
/-! DEFINITION. The reserved no-ops AND, OR, NOT, SHL, SHR and MOD (R150 to R156): the handler reads nothing and writes nothing; only the advance follows. Their opcodes are PRESUMED by the spec (R79, log 8). -/

namespace Sys2Proof.Machine

/-- The handler that "reads no operand byte and no register, writes nothing and emits nothing" (R150). -/
def noopHandler (s : State) : Result State := .ok s

/-- AND (R151): a no-op of length 3. -/
def execAnd (_d _s : Byte) (st : State) : Host.Outcome State Fault Refusal := complete .and st (noopHandler st)

/-- OR (R152): a no-op of length 3. -/
def execOr (_d _s : Byte) (st : State) : Host.Outcome State Fault Refusal := complete .or st (noopHandler st)

/-- NOT (R153): a no-op of length 2. -/
def execNot (_d : Byte) (st : State) : Host.Outcome State Fault Refusal := complete .not st (noopHandler st)

/-- SHL (R154): a no-op of length 3. -/
def execShl (_d _s : Byte) (st : State) : Host.Outcome State Fault Refusal := complete .shl st (noopHandler st)

/-- SHR (R155): a no-op of length 3. -/
def execShr (_d _s : Byte) (st : State) : Host.Outcome State Fault Refusal := complete .shr st (noopHandler st)

/-- MOD (R156): a no-op of length 3; nothing is divided. -/
def execMod (_d _s : Byte) (st : State) : Host.Outcome State Fault Refusal := complete .mod st (noopHandler st)

end Sys2Proof.Machine
end

