-- ==== Sys2Proof/Machine/Stack.lean ====
section
/-! DEFINITION. PUSH and POP (spec/43_stack.md, R170 to R174). -/

namespace Sys2Proof.Machine

/-- PUSH d (R173): `SP -= 1; mem[SP] = x[d]`, with `x[d]` read after the decrement, so PUSH R7 stores the new SP. -/
def execPush (d : Byte) (s : State) : Host.Outcome State Fault Refusal :=
  complete .push s do
    let d ← operand1 s d
    let s ← spDec s
    let v ← readReg s d
    memWrite s s.sp.toNat v.toNat

/-- POP d (R174): `x[d] = mem[SP]; SP += 1`, with the increment after the register write, so POP R7 gives the popped
byte plus 1. -/
def execPop (d : Byte) (s : State) : Host.Outcome State Fault Refusal :=
  complete .pop s do
    let d ← operand1 s d
    let v ← memRead s s.sp.toNat
    let s ← writeReg s d v.toNat
    spInc s

end Sys2Proof.Machine
end

