-- ==== Sys2Proof/Machine/Dispatch.lean ====
section
/-! DEFINITION. The static, exhaustive dispatch (R109): one arm per instruction. -/

namespace Sys2Proof.Machine

def exec (i : Instr) (s : State) : Host.Outcome State Fault Refusal :=
  match i with
  | .hlt => Sys2Proof.Machine.execHlt s
  | .ret => Sys2Proof.Machine.execRet s
  | .push d => Sys2Proof.Machine.execPush d s
  | .pop d => Sys2Proof.Machine.execPop d s
  | .prn d => Sys2Proof.Machine.execPrn d s
  | .call d => Sys2Proof.Machine.execCall d s
  | .jmp d => Sys2Proof.Machine.execJmp d s
  | .jeq d => Sys2Proof.Machine.execJeq d s
  | .jne d => Sys2Proof.Machine.execJne d s
  | .not d => Sys2Proof.Machine.execNot d s
  | .ldi d imm => Sys2Proof.Machine.execLdi d imm s
  | .add d r => Sys2Proof.Machine.execAdd d r s
  | .mul d r => Sys2Proof.Machine.execMul d r s
  | .xor d r => Sys2Proof.Machine.execXor d r s
  | .mod d r => Sys2Proof.Machine.execMod d r s
  | .cmp d r => Sys2Proof.Machine.execCmp d r s
  | .and d r => Sys2Proof.Machine.execAnd d r s
  | .or d r => Sys2Proof.Machine.execOr d r s
  | .shl d r => Sys2Proof.Machine.execShl d r s
  | .shr d r => Sys2Proof.Machine.execShr d r s

end Sys2Proof.Machine
end

