-- ==== Sys2Proof/Machine/Fetch.lean ====
section
/-! DEFINITION. Fetch and decode: the first two parts of a step (R101, R102, R103). -/

namespace Sys2Proof.Machine

/-- The byte the decode window holds for address `a`: the memory byte, or where the address does not exist a free
value, which no handler uses (log 7). -/
def windowByte (s : State) (a : Nat) : Byte := if a < 256 then s.mem.read a else Config.absentByte a

/-- The opcode byte `MemRead(pc, 1)`, which raises OutOfBounds from pc = 256 on (R102), and the two bytes after it,
where the operands lie (R55). An operand that is no address raises its fault only when the handler reads it (R104):
see `operand1`, `operand2`. -/
def fetchWindow (s : State) : Result (List Byte) := do
  let opc ← memRead s s.pc.toNat
  .ok [opc, windowByte s (s.pc.toNat + 1), windowByte s (s.pc.toNat + 2)]

/-- Fetch and decode (R102, R103, R226): a fetch out of range first, then an opcode absent from the dispatch ROM. -/
def fetchDecode (s : State) : Result Instr := do
  let window ← fetchWindow s
  match decode window with
  | .ok (i, _) => .ok i
  | .error _ => .error .invalidInstruction

/-- The state with the bytes of `bs` stored where the next step fetches its instruction. The machine is made to be
running, and a pc too near the top of memory for a whole instruction is moved to 0. -/
def State.withFetchBytes (s : State) (bs : List Byte) : State :=
  let pc := if s.pc.toNat + bs.length ≤ 256 then s.pc else 0
  { s with pc := pc, running := true, haltCause := .none, mem := s.mem.store pc.toNat bs }

end Sys2Proof.Machine
end

