-- ==== Sys2Proof/Machine/Step.lean ====
section
/-! DEFINITION. One step of the machine (R101): exactly one instruction. -/

namespace Sys2Proof.Machine

/-- The step of R101. It happens only while running (R100); a step request in HALTED "does nothing" (R108, D12). A
fetch or decode fault is taken as R221 and R222 say; the execute and advance parts are `exec`. -/
def step (s : State) : Host.Outcome State Fault Refusal :=
  if s.running then
    match fetchDecode s with
    | .ok i => exec i s
    | .error c => .next (s.takeFault c)
  else .next s

/-- The state with the table word `w` stored where the next step fetches (the host's question; log 4). -/
def State.withFetchWord (s : State) (nbits w : Nat) : State := s.withFetchBytes (tableWordBytes nbits w)

end Sys2Proof.Machine
end

