-- ==== Sys2Proof/Machine/HostPort.lean ====
section
/-! DEFINITION. What the host can do to the core between steps (R237, R239): reset, load memory, run, abort, and the loader's contract (R263 to R265). -/

namespace Sys2Proof.Machine

/-- Reset (R260): every register, Flags, pc, running and halt_cause take the values of R36; memory is kept. The output
of the new run is empty (log 5); R0 to R6 and SP take launch values given again (log 17). -/
def State.reinit (s : State) (L : Launch) : State := State.launch L s.mem

/-- `host_we` with `busy` = 0: one byte of memory (R237). -/
def hostWrite (addr v : Byte) (s : State) : State := { s with mem := s.mem.write addr.toNat v }

/-- The abort at a step boundary (R228): ABORTED if still running, else nothing. -/
def hostAbort (s : State) : State := if s.running then s.halt .aborted else s

/-- The program load (R263): the image goes to `M[0..L-1]`. An image of more than 256 bytes is refused as a whole
(R265, D17). -/
def loadImage (image : List Byte) (s : State) : Host.Outcome State Fault Refusal :=
  if imageFits image then .next { s with mem := s.mem.store 0 image } else .refused (.imageTooLong image.length)

/-- A line of the program text as the loader's contract tells lines apart (R263, R264). Reading the text itself is
out of scope (R4). -/
inductive ImageLine where
  /-- Empty, or its first character that is not white space is `#`: skipped, no address. -/
  | skipped
  /-- A binary literal, with its value. -/
  | literal (v : Nat)
  /-- A token that is not a valid binary literal. -/
  | malformed
deriving DecidableEq, Repr

/-- The byte a line writes, if it is well formed: a literal above 255 is a malformed line (R265). -/
def ImageLine.byte? : ImageLine → Option Byte
  | .skipped => none
  | .literal v => if v ≤ 255 then some (BitVec.ofNat 8 v) else none
  | .malformed => none

/-- The line is reported with MalformedProgramLine (R264, R265). -/
def ImageLine.reported : ImageLine → Bool
  | .skipped => false
  | .literal v => 255 < v
  | .malformed => true

/-- The image a program text loads as: only a well-formed line takes an address; a malformed line is skipped and
loading goes on (R263, R264, D16). -/
def imageOfLines (lines : List ImageLine) : List Byte := lines.filterMap ImageLine.byte?

/-- `n` steps (R107), ending early only if a step does not answer a next state. -/
def runSteps : Nat → State → Host.Outcome State Fault Refusal
  | 0, s => .next s
  | n + 1, s =>
    match step s with
    | .next t => runSteps n t
    | .fault r => .fault r
    | .refused r => .refused r

/-- Instructions executed one after another, each with the advance `exec` makes, as the control unit does when they
lie one after another in memory. -/
def execAll : List Instr → State → Host.Outcome State Fault Refusal
  | [], s => .next s
  | i :: is, s =>
    match exec i s with
    | .next t => execAll is t
    | .fault r => .fault r
    | .refused r => .refused r

end Sys2Proof.Machine
end

