-- ==== Sys2Proof/Machine/Ports.lean ====
section
/-! DEFINITION. The block at its pins (R237) and the micro-sequence of a step (R270), over the architectural State. No architectural rule depends on it (R269); it stands beside `step`, which it refines. -/

namespace Sys2Proof.Machine

/-- The input pins at a rising edge of `clk` (R237). -/
structure Pins where
  rst       : Bool
  run       : Bool
  step      : Bool
  abort     : Bool
  hostWe    : Bool
  hostAddr  : Byte
  hostWdata : Byte
  dbgRegSel : BitVec 3
deriving DecidableEq, Repr

/-- The output pins (R237). -/
structure Outputs where
  busy      : Bool
  running   : Bool
  haltCause : BitVec 3
  hostRdata : Byte
  outValid  : Bool
  outData   : Byte
  dbgPc     : Pc
  dbgFl     : FlagBits
  dbgReg    : Byte
deriving DecidableEq, Repr

/-- The micro-sequencer (R34 (b), R270): between steps, or in one of a step's cycles with what it has read so far. -/
inductive Phase where
  | idle
  | fetch
  | op1 (h : HandlerId)
  | op2 (h : HandlerId) (b1 : Byte)
  | exec (i : Instr)
deriving DecidableEq, Repr

/-- The clocked block: the architectural state, the sequencer, an abort waiting for the step boundary (R228), the
output register behind `out_valid` and `out_data` (R238, log 15), and a count of edges, the model's own, which only
the free values of `outputs` read. -/
structure Clocked where
  core         : State
  phase        : Phase
  abortPending : Bool
  outPort      : Option Byte
  cycle        : Nat
deriving DecidableEq, Repr

/-- `busy`: "1 while a step is in progress" (R237). -/
def Clocked.busy (c : Clocked) : Bool := c.phase != .idle

/-- The handler reads op1 in this state (R104): JEQ and JNE only when taken, HLT, RET and the no-ops never. -/
def readsOp1 (h : HandlerId) (s : State) : Bool :=
  match h with
  | .hlt => false
  | .ret => false
  | .push => true
  | .pop => true
  | .prn => true
  | .call => true
  | .jmp => true
  | .jeq => s.flagsEqual
  | .jne => !s.flagsEqual
  | .not => false
  | .ldi => true
  | .add => true
  | .mul => true
  | .xor => true
  | .mod => false
  | .cmp => true
  | .and => false
  | .or => false
  | .shl => false
  | .shr => false

/-- The handler reads op2 (R104): LDI, ADD, MUL, CMP and XOR. -/
def readsOp2 (h : HandlerId) : Bool :=
  match h with
  | .hlt => false
  | .ret => false
  | .push => false
  | .pop => false
  | .prn => false
  | .call => false
  | .jmp => false
  | .jeq => false
  | .jne => false
  | .not => false
  | .ldi => true
  | .add => true
  | .mul => true
  | .xor => true
  | .mod => false
  | .cmp => true
  | .and => false
  | .or => false
  | .shl => false
  | .shr => false

/-- What one cycle of a step does: go on to another phase, or end the step with the state it leaves and the byte it
emitted, if any. -/
inductive CycleResult where
  | goto (p : Phase)
  | done (s : State) (emitted : Option Byte)
deriving DecidableEq, Repr

/-- The FETCH cycle (R270). -/
def fetchCycle (s : State) : CycleResult :=
  match memRead s s.pc.toNat with
  | .error c => .done (s.takeFault c) none
  | .ok opc =>
    match dispatchRom opc with
    | none => .done (s.takeFault .invalidInstruction) none
    | some h => .goto (if readsOp1 h s then .op1 h else .exec (h.instr 0 0))

/-- The OP1 cycle (R270). -/
def op1Cycle (s : State) (h : HandlerId) : CycleResult :=
  match memRead s (s.pc.toNat + 1) with
  | .error c => .done (s.takeFault c) none
  | .ok b1 => .goto (if readsOp2 h then .op2 h b1 else .exec (h.instr b1 0))

/-- The OP2 cycle (R270). -/
def op2Cycle (s : State) (h : HandlerId) (b1 : Byte) : CycleResult :=
  match memRead s (s.pc.toNat + 2) with
  | .error c => .done (s.takeFault c) none
  | .ok b2 => .goto (.exec (h.instr b1 b2))

/-- One cycle of a step (R270). EXEC commits everything at once; operand bytes a handler does not read are 0 here and
reach no result. -/
def microCycle (s : State) : Phase → Host.Outcome CycleResult Fault Refusal
  | .idle => .next (.goto .idle)
  | .fetch => .next (fetchCycle s)
  | .op1 h => .next (op1Cycle s h)
  | .op2 h b1 => .next (op2Cycle s h b1)
  | .exec i =>
    match exec i s with
    | .next t => .next (.done t (t.output.drop s.output.length).head?)
    | .fault r => .fault r
    | .refused r => .refused r

/-- One rising clock edge (R237, R239, R260, R270), with launch values `L` for a reset. `rst` wins over everything (log 14)
and abandons a step in progress. An abort still waiting for that step is dropped with it: R228 has it wait for a commit
or a fault, which then never comes, and the spec is silent on it (DESIGN CHOICE, log 22). With `busy` = 0 the host's write lands, then an abort, then a request may start a step.
With `busy` = 1 host writes and step pulses are ignored and an abort waits for the end of the step (logs 13 to 16). -/
def clockEdge (L : Launch) (p : Pins) (c : Clocked) : Host.Outcome Clocked Fault Refusal :=
  if p.rst then
    .next { core := c.core.reinit L, phase := .idle, abortPending := false, outPort := none, cycle := c.cycle + 1 }
  else if c.phase = .idle then
    let written := if p.hostWe then hostWrite p.hostAddr p.hostWdata c.core else c.core
    let s := if p.abort || c.abortPending then hostAbort written else written
    .next { core := s, phase := if (p.run || p.step) && s.running then .fetch else .idle, abortPending := false,
            outPort := none, cycle := c.cycle + 1 }
  else
    match microCycle c.core c.phase with
    | .next (.goto q) =>
      .next { core := c.core, phase := q, abortPending := c.abortPending || p.abort, outPort := none,
              cycle := c.cycle + 1 }
    | .next (.done t emitted) =>
      let s := if p.abort || c.abortPending then hostAbort t else t
      .next { core := s, phase := if p.run && s.running then .fetch else .idle, abortPending := false,
              outPort := emitted, cycle := c.cycle + 1 }
    | .fault r => .fault r
    | .refused r => .refused r

/-- The output pins in a cycle, for that cycle's inputs (R235, R237, R238): reading them changes nothing. -/
def outputs (p : Pins) (c : Clocked) : Outputs where
  busy := c.busy
  running := c.core.running
  haltCause := c.core.haltCause.code
  hostRdata := if c.busy then Config.busyReadData c.cycle else c.core.mem.read p.hostAddr.toNat
  outValid := c.outPort.isSome
  outData := c.outPort.getD (Config.idleOutData c.cycle)
  dbgPc := c.core.pc
  dbgFl := c.core.fl
  dbgReg := c.core.reg ⟨p.dbgRegSel.toNat, p.dbgRegSel.isLt⟩

/-- The cycles of the step that starts in `s` (R270), those of a faulting step included: it ends in the cycle whose
read faults. -/
def stepCycles (s : State) : Nat :=
  match memRead s s.pc.toNat with
  | .error _ => 1
  | .ok opc =>
    match dispatchRom opc with
    | none => 1
    | some h =>
      if !readsOp1 h s then 2
      else if 256 ≤ s.pc.toNat + 1 then 2
      else if !readsOp2 h then 3
      else if 256 ≤ s.pc.toNat + 2 then 3
      else 4

/-- One clock edge after another. -/
def clockEdges (L : Launch) : List Pins → Clocked → Host.Outcome Clocked Fault Refusal
  | [], c => .next c
  | p :: ps, c =>
    match clockEdge L p c with
    | .next d => clockEdges L ps d
    | .fault r => .fault r
    | .refused r => .refused r

end Sys2Proof.Machine
end

