-- ==== Sys2Proof/Safety.lean ====
section
/-! DEFINITION. What counts as a good end of a run, and the invariant of the machine, in the terms the statements use. -/

namespace Sys2Proof.Machine

/-- The normal end of a run: stopped by HLT. "A state with any other cause is not a normal end" (R111). -/
abbrev State.normalEnd (s : State) : Prop := s.running = false ∧ s.haltCause = .hlt

/-- Stopped by one of the three fatal faults (R220). -/
abbrev State.faulted (s : State) : Prop :=
  s.running = false ∧
    (s.haltCause = .invalidInstruction ∨ s.haltCause = .outOfBounds ∨ s.haltCause = .unsupportedOperation)

/-- The invariant of every step from any state that meets it. -/
structure State.Inv (s : State) : Prop where
  /-- The memory list is in canonical form, all addresses below 256 (R50). -/
  memCanonical : s.mem.wf
  /-- FL holds 0, 1, 2 or 4 (R26, R28). -/
  flagsLegal : legalFlags s.fl = true
  /-- "Only 0 to 258 can be reached" (R29). -/
  pcReachable : s.pc.toNat ≤ 258
  /-- `halt_cause` is NONE exactly while running (R31). -/
  causeNoneIffRunning : s.running = true ↔ s.haltCause = .none
  /-- An invalid opcode leaves pc = 0 (R103, R222). -/
  invalidAtZero : s.haltCause = .invalidInstruction → s.pc = 0
  /-- "no run of this hardware reports it" (R224). -/
  neverUnsupported : s.haltCause ≠ .unsupportedOperation

end Sys2Proof.Machine
end

