-- ==== Sys2Proof/Certificates/Slice0/Obligations.lean ====
section
/-! DEFINITION. The statements for the provers, made from the spec's numbered rules. -/

open Sys2Proof Sys2Proof.Machine

/-! ### Encoding, decoding and the dispatch ROM -/

/-- R78: the ROM's valid entries are exactly these twenty opcode bytes, each with its handler. -/
def Obligations.DispatchRomHoldsTheTwentyOpcodes : Prop :=
  (dispatchRom 0x01#8 = some .hlt ∧ dispatchRom 0x11#8 = some .ret ∧ dispatchRom 0x45#8 = some .push ∧
    dispatchRom 0x46#8 = some .pop ∧ dispatchRom 0x47#8 = some .prn ∧ dispatchRom 0x50#8 = some .call ∧
    dispatchRom 0x54#8 = some .jmp ∧ dispatchRom 0x55#8 = some .jeq ∧ dispatchRom 0x56#8 = some .jne ∧
    dispatchRom 0x69#8 = some .not ∧ dispatchRom 0x82#8 = some .ldi ∧ dispatchRom 0xA0#8 = some .add ∧
    dispatchRom 0xA2#8 = some .mul ∧ dispatchRom 0xA3#8 = some .xor ∧ dispatchRom 0xA4#8 = some .mod ∧
    dispatchRom 0xA7#8 = some .cmp ∧ dispatchRom 0xA8#8 = some .and ∧ dispatchRom 0xAA#8 = some .or ∧
    dispatchRom 0xAC#8 = some .shl ∧ dispatchRom 0xAD#8 = some .shr) ∧
  ((List.range 256).filter fun n => (dispatchRom (BitVec.ofNat 8 n)).isSome).length = 20

/-- R72, R73, R74: for every valid opcode the stored metadata are the opcode's own bits 7:6 and 4. -/
def Obligations.RomMetadataAreTheOpcodeBits : Prop :=
  ∀ (opc : Byte) (h : HandlerId), dispatchRom opc = some h →
    h.row.opcode = opc ∧ h.row.operandCount.toNat = opc.toNat / 64 ∧
      h.row.controlsPc = decide (opc.toNat / 16 % 2 = 1)

/-- R78, R82: words written out from the encoding table decode to the instructions they stand for. -/
def Obligations.WrittenOutWordsDecode : Prop :=
  decode [0b00000001#8] = .ok (.hlt, []) ∧
  decode [0b00010001#8] = .ok (.ret, []) ∧
  decode [0b01000101#8, 0b00000011#8] = .ok (.push 3, []) ∧
  decode [0b01000111#8, 0b00000000#8] = .ok (.prn 0, []) ∧
  decode [0b01010000#8, 0b00000001#8] = .ok (.call 1, []) ∧
  decode [0b01010101#8, 0b11111111#8] = .ok (.jeq 255, []) ∧
  decode [0b01101001#8, 0b00001001#8] = .ok (.not 9, []) ∧
  decode [0b10000010#8, 0b00000000#8, 0b00001000#8] = .ok (.ldi 0 8, []) ∧
  decode [0b10100010#8, 0b00000000#8, 0b00000001#8] = .ok (.mul 0 1, []) ∧
  decode [0b10100011#8, 0b00000010#8, 0b00000110#8] = .ok (.xor 2 6, []) ∧
  decode [0b10101101#8, 0b00000000#8, 0b00000001#8] = .ok (.shr 0 1, [])

/-- Decoding an encoded instruction gives it back, with every operand byte at every value, whatever follows it. -/
def Obligations.DecodingAnEncodingGivesItBack : Prop :=
  ∀ (i : Instr) (rest : List Byte), decode (encode i ++ rest) = .ok (i, rest)

/-- A byte sequence that decodes starts with the encoding of what it decodes to: each word has one meaning. -/
def Obligations.DecodedBytesAreTheEncoding : Prop :=
  ∀ (bs rest : List Byte) (i : Instr), decode bs = .ok (i, rest) → bs = encode i ++ rest

/-- R80: every other opcode byte is rejected as invalid, whatever follows it. -/
def Obligations.OtherOpcodesAreInvalid : Prop :=
  ∀ (opc : Byte) (rest : List Byte),
    opc ∉ [0x01#8, 0x11#8, 0x45#8, 0x46#8, 0x47#8, 0x50#8, 0x54#8, 0x55#8, 0x56#8, 0x69#8,
      0x82#8, 0xA0#8, 0xA2#8, 0xA3#8, 0xA4#8, 0xA7#8, 0xA8#8, 0xAA#8, 0xAC#8, 0xAD#8] →
    decode (opc :: rest) = .error (.invalidOpcode opc)

/-! ### Reset -/

/-- R36, R260, R261: what reset leaves, for every choice of the launch parameters; memory is kept. (The output list,
which is the model's own, log 5, is not spoken of.) -/
def Obligations.ResetLeavesTheResetState : Prop :=
  ∀ (s : State) (L : Launch),
    (s.reinit L).pc = 0 ∧ (s.reinit L).reg 7 = L.spInit ∧
    (∀ r : Fin 7, (s.reinit L).reg r.castSucc = L.regInit[r.val]) ∧
    (s.reinit L).fl = 0 ∧ (s.reinit L).running = true ∧ (s.reinit L).haltCause = .none ∧
    (s.reinit L).haltCause.code = 0 ∧ (s.reinit L).mem = s.mem

/-! ### The instructions: encoding, effect, and where they fault (a fault's next state is R221's) -/

/-- R120. -/
def Obligations.LdiLoadsTheImmediate : Prop :=
  ∀ (d imm : Byte) (s : State),
    encode (.ldi d imm) = [0b10000010#8, d, imm] ∧
    (∀ _hd : d.toNat < 8, s.pc.toNat + 2 < 256 →
      exec (.ldi d imm) s = .next { s with regs := s.regs.set d.toNat imm, pc := s.pc + 3 }) ∧
    (256 ≤ s.pc.toNat + 2 ∨ 8 ≤ d.toNat →
      exec (.ldi d imm) s = .next { s with running := false, haltCause := .outOfBounds })

/-- R121. -/
def Obligations.PrnEmitsTheRegister : Prop :=
  ∀ (d : Byte) (s : State),
    encode (.prn d) = [0b01000111#8, d] ∧
    (∀ _hd : d.toNat < 8, s.pc.toNat + 1 < 256 →
      exec (.prn d) s = .next { s with output := s.output ++ [s.regs[d.toNat]], pc := s.pc + 2 }) ∧
    (256 ≤ s.pc.toNat + 1 ∨ 8 ≤ d.toNat →
      exec (.prn d) s = .next { s with running := false, haltCause := .outOfBounds })

/-- R122, R106: HLT stops the machine, pc ends one past it, and no step happens after it. -/
def Obligations.HltHaltsOnePastItself : Prop :=
  ∀ s : State,
    encode .hlt = [0b00000001#8] ∧
    exec .hlt s = .next { s with running := false, haltCause := .hlt, pc := s.pc + 1 } ∧
    step { s with running := false, haltCause := .hlt, pc := s.pc + 1 } =
      .next { s with running := false, haltCause := .hlt, pc := s.pc + 1 }

/-- R146. -/
def Obligations.AddWritesTheSumMod256 : Prop :=
  ∀ (d r : Byte) (s : State),
    encode (.add d r) = [0b10100000#8, d, r] ∧
    (∀ (_hd : d.toNat < 8) (_hr : r.toNat < 8), s.pc.toNat + 2 < 256 →
      exec (.add d r) s = .next { s with
        regs := s.regs.set d.toNat (BitVec.ofNat 8 ((s.regs[d.toNat].toNat + s.regs[r.toNat].toNat) % 256)),
        pc := s.pc + 3 }) ∧
    (256 ≤ s.pc.toNat + 2 ∨ 8 ≤ d.toNat ∨ 8 ≤ r.toNat →
      exec (.add d r) s = .next { s with running := false, haltCause := .outOfBounds })

/-- R147: op2 is a register index. -/
def Obligations.MulWritesTheProductMod256 : Prop :=
  ∀ (d r : Byte) (s : State),
    encode (.mul d r) = [0b10100010#8, d, r] ∧
    (∀ (_hd : d.toNat < 8) (_hr : r.toNat < 8), s.pc.toNat + 2 < 256 →
      exec (.mul d r) s = .next { s with
        regs := s.regs.set d.toNat (BitVec.ofNat 8 ((s.regs[d.toNat].toNat * s.regs[r.toNat].toNat) % 256)),
        pc := s.pc + 3 }) ∧
    (256 ≤ s.pc.toNat + 2 ∨ 8 ≤ d.toNat ∨ 8 ≤ r.toNat →
      exec (.mul d r) s = .next { s with running := false, haltCause := .outOfBounds })

/-- R148: FL is 1, 2 or 4 by the unsigned comparison. -/
def Obligations.CmpWritesTheComparison : Prop :=
  ∀ (d r : Byte) (s : State),
    encode (.cmp d r) = [0b10100111#8, d, r] ∧
    (∀ (_hd : d.toNat < 8) (_hr : r.toNat < 8), s.pc.toNat + 2 < 256 →
      exec (.cmp d r) s = .next { s with
        fl := if s.regs[d.toNat].toNat = s.regs[r.toNat].toNat then 1#3
              else if s.regs[d.toNat].toNat > s.regs[r.toNat].toNat then 2#3 else 4#3,
        pc := s.pc + 3 }) ∧
    (256 ≤ s.pc.toNat + 2 ∨ 8 ≤ d.toNat ∨ 8 ≤ r.toNat →
      exec (.cmp d r) s = .next { s with running := false, haltCause := .outOfBounds })

/-- R149: XOR writes 0 if its operands are equal, else 1, and FL as CMP does; a fault leaves FL too. -/
def Obligations.XorWritesTheNotEqualPredicate : Prop :=
  ∀ (d r : Byte) (s : State),
    encode (.xor d r) = [0b10100011#8, d, r] ∧
    (∀ (_hd : d.toNat < 8) (_hr : r.toNat < 8), s.pc.toNat + 2 < 256 →
      exec (.xor d r) s = .next { s with
        regs := s.regs.set d.toNat (if s.regs[d.toNat] = s.regs[r.toNat] then 0#8 else 1#8),
        fl := if s.regs[d.toNat].toNat = s.regs[r.toNat].toNat then 1#3
              else if s.regs[d.toNat].toNat > s.regs[r.toNat].toNat then 2#3 else 4#3,
        pc := s.pc + 3 }) ∧
    (256 ≤ s.pc.toNat + 2 ∨ 8 ≤ d.toNat ∨ 8 ≤ r.toNat →
      exec (.xor d r) s = .next { s with running := false, haltCause := .outOfBounds })

/-- R150 to R156: the six reserved no-ops change nothing but pc, in every state and with every operand byte. The
opcode bytes themselves are the spec's own assignment (R79, log 8). -/
def Obligations.ReservedNoOpsOnlyAdvance : Prop :=
  ∀ (d r : Byte) (s : State),
    (encode (.and d r) = [0b10101000#8, d, r] ∧ exec (.and d r) s = .next { s with pc := s.pc + 3 }) ∧
    (encode (.or d r) = [0b10101010#8, d, r] ∧ exec (.or d r) s = .next { s with pc := s.pc + 3 }) ∧
    (encode (.not d) = [0b01101001#8, d] ∧ exec (.not d) s = .next { s with pc := s.pc + 2 }) ∧
    (encode (.shl d r) = [0b10101100#8, d, r] ∧ exec (.shl d r) s = .next { s with pc := s.pc + 3 }) ∧
    (encode (.shr d r) = [0b10101101#8, d, r] ∧ exec (.shr d r) s = .next { s with pc := s.pc + 3 }) ∧
    (encode (.mod d r) = [0b10100100#8, d, r] ∧ exec (.mod d r) s = .next { s with pc := s.pc + 3 })

/-- R173: the register is read after the decrement, so PUSH R7 stores the decremented SP. -/
def Obligations.PushStoresBelowTheStackPointer : Prop :=
  ∀ (d : Byte) (s : State),
    encode (.push d) = [0b01000101#8, d] ∧
    (∀ _hd : d.toNat < 8, s.pc.toNat + 1 < 256 → 0 < s.regs[7].toNat →
      exec (.push d) s = .next { s with
        regs := s.regs.set 7 (s.regs[7] - 1),
        mem := s.mem.write (s.regs[7].toNat - 1) (if d = 7 then s.regs[7] - 1 else s.regs[d.toNat]),
        pc := s.pc + 2 }) ∧
    (256 ≤ s.pc.toNat + 1 ∨ s.regs[7].toNat = 0 ∨ 8 ≤ d.toNat →
      exec (.push d) s = .next { s with running := false, haltCause := .outOfBounds })

/-- R174: the increment follows the register write, so POP R7 leaves the popped byte plus 1. -/
def Obligations.PopLoadsFromTheStackPointer : Prop :=
  ∀ (d : Byte) (s : State),
    encode (.pop d) = [0b01000110#8, d] ∧
    (∀ _hd : d.toNat < 8, d ≠ 7 → s.pc.toNat + 1 < 256 → s.regs[7].toNat < 255 →
      exec (.pop d) s = .next { s with
        regs := (s.regs.set d.toNat (s.mem.read s.regs[7].toNat)).set 7 (s.regs[7] + 1),
        pc := s.pc + 2 }) ∧
    (d = 7 → s.pc.toNat + 1 < 256 → (s.mem.read s.regs[7].toNat).toNat < 255 →
      exec (.pop d) s = .next { s with
        regs := s.regs.set 7 (s.mem.read s.regs[7].toNat + 1),
        pc := s.pc + 2 }) ∧
    (256 ≤ s.pc.toNat + 1 ∨ 8 ≤ d.toNat ∨ (d ≠ 7 ∧ s.regs[7].toNat = 255) ∨
        (d = 7 ∧ (s.mem.read s.regs[7].toNat).toNat = 255) →
      exec (.pop d) s = .next { s with running := false, haltCause := .outOfBounds })

/-- R190: the return address is pc + 2 stored mod 256, and CALL R7 jumps to the decremented SP. -/
def Obligations.CallPushesTheReturnAddress : Prop :=
  ∀ (d : Byte) (s : State),
    encode (.call d) = [0b01010000#8, d] ∧
    (∀ _hd : d.toNat < 8, s.pc.toNat + 1 < 256 → 0 < s.regs[7].toNat →
      exec (.call d) s = .next { s with
        regs := s.regs.set 7 (s.regs[7] - 1),
        mem := s.mem.write (s.regs[7].toNat - 1) (BitVec.ofNat 8 ((s.pc.toNat + 2) % 256)),
        pc := (if d = 7 then s.regs[7] - 1 else s.regs[d.toNat]).setWidth 9 }) ∧
    (256 ≤ s.pc.toNat + 1 ∨ s.regs[7].toNat = 0 ∨ 8 ≤ d.toNat →
      exec (.call d) s = .next { s with running := false, haltCause := .outOfBounds })

/-- R191. -/
def Obligations.RetPopsThePc : Prop :=
  ∀ s : State,
    encode .ret = [0b00010001#8] ∧
    (s.regs[7].toNat < 255 →
      exec .ret s = .next { s with
        regs := s.regs.set 7 (s.regs[7] + 1),
        pc := (s.mem.read s.regs[7].toNat).setWidth 9 }) ∧
    (s.regs[7].toNat = 255 →
      exec .ret s = .next { s with running := false, haltCause := .outOfBounds })

/-- R192. -/
def Obligations.JmpGoesToTheRegister : Prop :=
  ∀ (d : Byte) (s : State),
    encode (.jmp d) = [0b01010100#8, d] ∧
    (∀ _hd : d.toNat < 8, s.pc.toNat + 1 < 256 →
      exec (.jmp d) s = .next { s with pc := s.regs[d.toNat].setWidth 9 }) ∧
    (256 ≤ s.pc.toNat + 1 ∨ 8 ≤ d.toNat →
      exec (.jmp d) s = .next { s with running := false, haltCause := .outOfBounds })

/-- R193: taken exactly when FL = 1; not taken, it reads no operand and cannot fault. -/
def Obligations.JeqJumpsWhenEqual : Prop :=
  ∀ (d : Byte) (s : State),
    encode (.jeq d) = [0b01010101#8, d] ∧
    (∀ _hd : d.toNat < 8, s.fl = 1#3 → s.pc.toNat + 1 < 256 →
      exec (.jeq d) s = .next { s with pc := s.regs[d.toNat].setWidth 9 }) ∧
    (s.fl ≠ 1#3 → exec (.jeq d) s = .next { s with pc := s.pc + 2 }) ∧
    (s.fl = 1#3 → 256 ≤ s.pc.toNat + 1 ∨ 8 ≤ d.toNat →
      exec (.jeq d) s = .next { s with running := false, haltCause := .outOfBounds })

/-- R194: taken exactly when FL ≠ 1; not taken, it reads no operand and cannot fault. -/
def Obligations.JneJumpsWhenNotEqual : Prop :=
  ∀ (d : Byte) (s : State),
    encode (.jne d) = [0b01010110#8, d] ∧
    (∀ _hd : d.toNat < 8, s.fl ≠ 1#3 → s.pc.toNat + 1 < 256 →
      exec (.jne d) s = .next { s with pc := s.regs[d.toNat].setWidth 9 }) ∧
    (s.fl = 1#3 → exec (.jne d) s = .next { s with pc := s.pc + 2 }) ∧
    (s.fl ≠ 1#3 → 256 ≤ s.pc.toNat + 1 ∨ 8 ≤ d.toNat →
      exec (.jne d) s = .next { s with running := false, haltCause := .outOfBounds })

/-! ### The operations under the instructions -/

/-- R141 to R144: what the ALU returns for its four operations. -/
def Obligations.AluComputesItsFourOperations : Prop :=
  ∀ a b : Byte,
    alu .add a b = .ok ⟨some ((a.toNat + b.toNat) % 256), none⟩ ∧
    alu .mul a b = .ok ⟨some ((a.toNat * b.toNat) % 256), none⟩ ∧
    (alu .cmp a b = .ok ⟨none, some (if a.toNat = b.toNat then 1#3 else if a.toNat > b.toNat then 2#3 else 4#3)⟩) ∧
    (alu .xor a b = .ok ⟨some (if a.toNat = b.toNat then 0 else 1),
      some (if a.toNat = b.toNat then 1#3 else if a.toNat > b.toNat then 2#3 else 4#3)⟩)

/-- R157: the laws of the unsigned 8-bit arithmetic, on the ALU's functions. -/
def Obligations.AluLawsHold : Prop :=
  ∀ a b : Byte,
    aluAdd a b = aluAdd b a ∧ aluAdd a 0 = a.toNat ∧ aluAdd a b < 256 ∧
    aluMul a b = aluMul b a ∧ aluMul a 1 = a.toNat ∧ aluMul a 0 = 0 ∧ aluMul a b < 256 ∧
    (aluCompare a b = flEqual ↔ a = b) ∧ (aluCompare a b = flGreater ↔ b.toNat < a.toNat) ∧
    (aluCompare a b = flLess ↔ a.toNat < b.toNat) ∧
    (aluXor a b = 0 ↔ a = b) ∧ (aluXor a b = 1 ↔ a ≠ b) ∧
    alu .add a b = .ok ⟨some (aluAdd a b), none⟩ ∧ alu .mul a b = .ok ⟨some (aluMul a b), none⟩

/-- R145, R224: the ALU's error is for an operation it does not have; no instruction raises it; its code is 4. -/
def Obligations.NoInstructionIsUnsupported : Prop :=
  (∀ (op : AluOp) (a b : Byte) (c : HaltCause),
    alu op a b = .error c ↔ op = .unrecognised ∧ c = .unsupportedOperation) ∧
  (∀ (i : Instr) (s t : State), exec i s = .next t → t.haltCause = .unsupportedOperation →
    s.haltCause = .unsupportedOperation) ∧
  HaltCause.unsupportedOperation.code = 4

/-- R171, R172: stack-pointer arithmetic never wraps. -/
def Obligations.StackPointerArithmeticNeverWraps : Prop :=
  ∀ s : State,
    (s.regs[7].toNat = 0 → spDec s = .error .outOfBounds) ∧
    (0 < s.regs[7].toNat →
      ∃ t, spDec s = .ok t ∧ t.regs[7].toNat + 1 = s.regs[7].toNat ∧ t = { s with regs := s.regs.set 7 t.regs[7] }) ∧
    (s.regs[7].toNat = 255 → spInc s = .error .outOfBounds) ∧
    (s.regs[7].toNat < 255 →
      ∃ t, spInc s = .ok t ∧ t.regs[7].toNat = s.regs[7].toNat + 1 ∧ t = { s with regs := s.regs.set 7 t.regs[7] })

/-- R51, R52, R57, R60: an access from address 256 on is OutOfBounds; below it a write stores the value mod 256, the
next read returns it, and nothing else changes. -/
def Obligations.MemoryReadsTheLastWrite : Prop :=
  ∀ (s : State) (a v : Nat),
    (256 ≤ a → memRead s a = .error .outOfBounds ∧ memWrite s a v = .error .outOfBounds) ∧
    (a < 256 → memRead s a = .ok (s.mem.read a) ∧
      ∃ t, memWrite s a v = .ok t ∧ memRead t a = .ok (BitVec.ofNat 8 (v % 256)) ∧
        (∀ b, b ≠ a → memRead t b = memRead s b) ∧ t = { s with mem := t.mem })

/-- Two memories in canonical form that read alike at every address are the same list. -/
def Obligations.CanonicalMemoriesAreEqualWhenTheyReadAlike : Prop :=
  ∀ m n : Memory, m.wf → n.wf → (∀ a, a < 256 → m.read a = n.read a) → m = n

/-! ### Frames: what an instruction leaves unchanged -/

/-- R25: a register changes only if it is a destination of the instruction, SP included where the stack is used. -/
def Obligations.OnlyDestinationRegistersChange : Prop :=
  let destinations : Instr → List Nat := fun
    | .ldi d _ => [d.toNat]
    | .add d _ => [d.toNat]
    | .mul d _ => [d.toNat]
    | .xor d _ => [d.toNat]
    | .push _ => [7]
    | .pop d => [d.toNat, 7]
    | .call _ => [7]
    | .ret => [7]
    | .hlt => []
    | .prn _ => []
    | .jmp _ => []
    | .jeq _ => []
    | .jne _ => []
    | .cmp _ _ => []
    | .not _ => []
    | .and _ _ => []
    | .or _ _ => []
    | .shl _ _ => []
    | .shr _ _ => []
    | .mod _ _ => []
  ∀ (i : Instr) (s t : State), exec i s = .next t →
    ∀ r : Fin 8, r.val ∉ destinations i → t.reg r = s.reg r

/-- R27: only CMP and XOR change Flags; every other instruction leaves it. -/
def Obligations.OnlyCmpAndXorWriteFlags : Prop :=
  ∀ (i : Instr) (s t : State), exec i s = .next t →
    (∀ d r, i ≠ .cmp d r ∧ i ≠ .xor d r) → t.fl = s.fl

/-- R27: only JEQ and JNE read Flags. Any other instruction run with another value of Flags does the same to
everything but Flags. -/
def Obligations.OnlyConditionalBranchesReadFlags : Prop :=
  ∀ (i : Instr) (s t u : State) (f : FlagBits), (∀ d, i ≠ .jeq d ∧ i ≠ .jne d) →
    exec i s = .next t → exec i { s with fl := f } = .next u →
    u.regs = t.regs ∧ u.pc = t.pc ∧ u.running = t.running ∧ u.haltCause = t.haltCause ∧
      u.mem = t.mem ∧ u.output = t.output

/-- R33: no instruction reads `running` or `halt_cause` (or the list of emitted bytes) as data. -/
def Obligations.StatusIsNeverReadAsData : Prop :=
  ∀ (i : Instr) (s t u : State) (b : Bool) (c : HaltCause) (o : List Byte),
    exec i s = .next t → exec i { s with running := b, haltCause := c, output := o } = .next u →
    u.regs = t.regs ∧ u.fl = t.fl ∧ u.pc = t.pc ∧ u.mem = t.mem

/-- R54: every instruction but PUSH and CALL leaves every byte of memory. -/
def Obligations.OnlyPushAndCallWriteMemory : Prop :=
  ∀ (i : Instr) (s t : State), exec i s = .next t → (∀ d, i ≠ .push d ∧ i ≠ .call d) →
    ∀ a, t.mem.read a = s.mem.read a

/-- R173, R190, R57: PUSH and CALL write at most one byte, at the decremented SP, the address `spDec` leaves in SP:
every other address reads as before, and where the decrement faults every address does. Unless the instruction faults,
that byte is then x[d] as it is after the decrement (PUSH), or (pc + 2) mod 256 (CALL). -/
def Obligations.PushAndCallWriteOneByte : Prop :=
  ∀ (d : Byte) (i : Instr) (s t : State), i = .push d ∨ i = .call d → exec i s = .next t →
    (∀ u, spDec s = .ok u → ∀ a, a ≠ u.sp.toNat → t.mem.read a = s.mem.read a) ∧
    (∀ c, spDec s = .error c → ∀ a, t.mem.read a = s.mem.read a) ∧
    (t = { s with running := false, haltCause := .outOfBounds } ∨
      ∃ u, spDec s = .ok u ∧ ∃ _hd : d.toNat < 8, t.mem.read u.sp.toNat =
        if i = .push d then u.regs[d.toNat] else BitVec.ofNat 8 ((s.pc.toNat + 2) % 256))

/-- R121, R238: only PRN emits, and then exactly one byte, appended. -/
def Obligations.OnlyPrnEmits : Prop :=
  ∀ (i : Instr) (s t : State), exec i s = .next t →
    t.output = s.output ∨ ∃ d v, i = .prn d ∧ t.output = s.output ++ [v]

/-- R9, R221, R226: an instruction goes on, or is HLT, or takes OutOfBounds and commits none of its writes, pc included.
(This speaks of this core, by R221; it says nothing of the reference software after a fault.) -/
def Obligations.AFaultCommitsNothing : Prop :=
  ∀ (i : Instr) (s t : State), exec i s = .next t →
    (t.running = s.running ∧ t.haltCause = s.haltCause) ∨
    (i = .hlt ∧ t.running = false ∧ t.haltCause = .hlt) ∨
    t = { s with running := false, haltCause := .outOfBounds }

/-- R105, R29: an instruction that does not set pc itself moves it past its own bytes, without wrap, unless it faults. -/
def Obligations.TheAdvanceNeverWraps : Prop :=
  ∀ (i : Instr) (s t : State), i.handler.row.controlsPc = false → s.pc.toNat < 256 → exec i s = .next t →
    t.pc.toNat = s.pc.toNat + (encode i).length ∨ t = { s with running := false, haltCause := .outOfBounds }

/-- R29, R195: an instruction that sets pc itself goes to a byte address, or is a JEQ or JNE not taken, or faults. -/
def Obligations.TransfersGoToByteAddresses : Prop :=
  ∀ (i : Instr) (s t : State), i.handler.row.controlsPc = true → exec i s = .next t →
    t.pc.toNat < 256 ∨ ((∃ d, i = .jeq d ∨ i = .jne d) ∧ t.pc = s.pc + 2) ∨
      t = { s with running := false, haltCause := .outOfBounds }

/-- R223: an instruction whose register operands name registers, whose bytes all lie in memory, and which finds SP
between 1 and 254 and a byte below 255 there, raises no fault. The bytes are those of the instruction's own encoding. -/
def Obligations.OrdinaryInstructionsDoNotFault : Prop :=
  ∀ (i : Instr) (s : State), i.wellFormed = true → s.pc.toNat + (encode i).length ≤ 256 →
    0 < s.sp.toNat → s.sp.toNat < 255 →
    (s.mem.read s.sp.toNat).toNat < 255 → s.running = true → s.haltCause = .none →
    ∃ t, exec i s = .next t ∧ ¬ t.faulted

/-! ### The step -/

/-- R101, R103: a step is `exec` of the instruction that the bytes at pc decode to; the advance is in `exec`. The
three-byte window the decoder is given is the model's choice: where pc + 1 or pc + 2 is no address, `windowByte` is a
free value (log 7, DESIGN CHOICE), and no rule of the spec gives a byte there. -/
def Obligations.AStepRunsTheDecodedInstruction : Prop :=
  ∀ (s : State) (i : Instr) (rest : List Byte), s.running = true → s.pc.toNat < 256 →
    decode [s.mem.read s.pc.toNat, windowByte s (s.pc.toNat + 1), windowByte s (s.pc.toNat + 2)] = .ok (i, rest) →
    step s = exec i s

/-- R55, R62, R101: when the bytes of an instruction's encoding lie in memory from pc on, the step runs it. -/
def Obligations.AStepRunsTheEncodedInstruction : Prop :=
  ∀ (s : State) (i : Instr), s.running = true →
    (∀ k b, (encode i)[k]? = some b → s.pc.toNat + k < 256 ∧ s.mem.read (s.pc.toNat + k) = b) →
    step s = exec i s

/-- R102, R221: a fetch at pc ≥ 256 is OutOfBounds, and pc keeps its value. -/
def Obligations.AFetchPastMemoryFaults : Prop :=
  ∀ s : State, s.running = true → 256 ≤ s.pc.toNat →
    step s = .next { s with running := false, haltCause := .outOfBounds }

/-- R103, R222: an invalid opcode writes exactly running, halt_cause and pc = 0. -/
def Obligations.AnInvalidOpcodeHaltsAtZero : Prop :=
  ∀ s : State, s.running = true → s.pc.toNat < 256 →
    s.mem.read s.pc.toNat ∉ [0x01#8, 0x11#8, 0x45#8, 0x46#8, 0x47#8, 0x50#8, 0x54#8, 0x55#8, 0x56#8, 0x69#8,
      0x82#8, 0xA0#8, 0xA2#8, 0xA3#8, 0xA4#8, 0xA7#8, 0xA8#8, 0xAA#8, 0xAC#8, 0xAD#8] →
    step s = .next { s with running := false, haltCause := .invalidInstruction, pc := 0 }

/-- R104, R150, R193, R194: a reserved no-op, and a JEQ or JNE not taken, is decided by its opcode byte alone: at any
pc below 256, also where its operand bytes would lie past 255, the step only advances pc. -/
def Obligations.UnreadOperandsCannotFault : Prop :=
  ∀ s : State, s.running = true → s.pc.toNat < 256 →
    (s.mem.read s.pc.toNat ∈ [0xA8#8, 0xAA#8, 0xAC#8, 0xAD#8, 0xA4#8] → step s = .next { s with pc := s.pc + 3 }) ∧
    (s.mem.read s.pc.toNat = 0x69#8 → step s = .next { s with pc := s.pc + 2 }) ∧
    (s.mem.read s.pc.toNat = 0x55#8 → s.fl ≠ 1#3 → step s = .next { s with pc := s.pc + 2 }) ∧
    (s.mem.read s.pc.toNat = 0x56#8 → s.fl = 1#3 → step s = .next { s with pc := s.pc + 2 })

/-- R100, R108, R229: in HALTED no step happens and no state changes, however many are asked for. -/
def Obligations.HaltedIsTerminal : Prop :=
  ∀ (n : Nat) (s : State), s.running = false → runSteps n s = .next s

/-- The reset state meets the invariant, for every choice of the launch parameters and every canonical memory. -/
def Obligations.ResetMeetsTheInvariant : Prop :=
  (∀ (L : Launch) (m : Memory), m.wf → (State.launch L m).Inv) ∧ State.reset.Inv

/-- Every step from a state that meets the invariant (`State.Inv`: canonical memory, Flags in 0, 1, 2, 4, pc at most
258, halt_cause NONE exactly while running, pc 0 after an invalid opcode, never UNSUPPORTED_OPERATION) meets it. -/
def Obligations.EveryStepKeepsTheInvariant : Prop :=
  ∀ s t : State, s.Inv → step s = .next t → t.Inv

/-! ### Sequences -/

/-- R175, and the property of §8: pushes, and then as many pops in reverse register order, restore every register and SP.
No operand is R7, and SP and the instruction bytes stay in range. -/
def Obligations.PushesThenPopsRestoreTheRegisters : Prop :=
  ∀ (ds : List Byte) (s : State), (∀ d ∈ ds, d.toNat < 7) → ds.length ≤ s.sp.toNat →
    s.pc.toNat + 4 * ds.length ≤ 256 →
    ∃ t, execAll (ds.map .push ++ ds.reverse.map .pop) s = .next t ∧
      t.regs = s.regs ∧ t.fl = s.fl ∧ t.pc.toNat = s.pc.toNat + 4 * ds.length ∧
      t.running = s.running ∧ t.haltCause = s.haltCause ∧ t.output = s.output ∧
      ∀ a, a < s.sp.toNat - ds.length ∨ s.sp.toNat ≤ a → t.mem.read a = s.mem.read a

/-- R196: CALL, any subroutine that leaves SP and `M[SP]` as it found them, and RET: pc is just past the CALL and SP is
back at its value before it. -/
def Obligations.CallThenRetComesBack : Prop :=
  ∀ (d : Byte) (s : State) (_hd : d.toNat < 7), s.pc.toNat ≤ 253 → 0 < s.sp.toNat →
    ∃ t, exec (.call d) s = .next t ∧ t.pc = s.regs[d.toNat].setWidth 9 ∧
    ∀ u : State, u.sp = t.sp → u.mem.read u.sp.toNat = t.mem.read t.sp.toNat →
      ∃ v, exec .ret u = .next v ∧ v.pc.toNat = s.pc.toNat + 2 ∧ v.sp = s.sp ∧ v.running = u.running

/-- R197, and the property of §8: after CMP a, b a JEQ goes to its target exactly when the values are equal, and a JNE
exactly when they differ; otherwise each falls through by 2. -/
def Obligations.CompareThenBranch : Prop :=
  ∀ (a b r : Byte) (s : State) (_ha : a.toNat < 8) (_hb : b.toNat < 8) (_hr : r.toNat < 8), s.pc.toNat + 4 < 256 →
    ∃ t u, execAll [.cmp a b, .jeq r] s = .next t ∧ execAll [.cmp a b, .jne r] s = .next u ∧
      (s.regs[a.toNat] = s.regs[b.toNat] →
        t.pc.toNat = s.regs[r.toNat].toNat ∧ u.pc.toNat = s.pc.toNat + 5) ∧
      (s.regs[a.toNat] ≠ s.regs[b.toNat] →
        u.pc.toNat = s.regs[r.toNat].toNat ∧ t.pc.toNat = s.pc.toNat + 5)

/-! ### The host -/

/-- R228: an abort between steps halts a running machine with ABORTED and changes nothing else; a halted one it leaves. -/
def Obligations.AnAbortStopsARunningMachine : Prop :=
  ∀ s : State,
    (s.running = true → hostAbort s = { s with running := false, haltCause := .aborted }) ∧
    (s.running = false → hostAbort s = s)

/-- R263, R265: an image of at most 256 bytes is written from address 0 upward and nothing else changes; a longer one is
refused as a whole. -/
def Obligations.TheLoaderWritesTheImage : Prop :=
  ∀ (image : List Byte) (s : State),
    (image.length ≤ 256 → ∃ t, loadImage image s = .next t ∧ t = { s with mem := t.mem } ∧
      (∀ k b, image[k]? = some b → t.mem.read k = b) ∧
      (∀ a, image.length ≤ a → t.mem.read a = s.mem.read a) ∧ (s.mem.wf → t.mem.wf)) ∧
    (256 < image.length → loadImage image s = .refused (.imageTooLong image.length))

/-- R263, R264, R265: a skipped line and a malformed one (a bad token, or a literal above 255) take no load address; a
literal up to 255 takes one; exactly the malformed ones are reported. -/
def Obligations.OnlyWellFormedLinesTakeAnAddress : Prop :=
  ∀ (before after : List ImageLine) (v : Nat),
    imageOfLines (before ++ .skipped :: after) = imageOfLines (before ++ after) ∧
    imageOfLines (before ++ .malformed :: after) = imageOfLines (before ++ after) ∧
    (255 < v → imageOfLines (before ++ .literal v :: after) = imageOfLines (before ++ after)) ∧
    (v ≤ 255 → imageOfLines (before ++ .literal v :: after) =
      imageOfLines before ++ BitVec.ofNat 8 v :: imageOfLines after) ∧
    ImageLine.skipped.reported = false ∧ ImageLine.malformed.reported = true ∧
    ((ImageLine.literal v).reported = true ↔ 255 < v)

/-- Everything the host can do between steps keeps the invariant: a reset, a byte written, an abort, an image loaded. -/
def Obligations.HostActionsKeepTheInvariant : Prop :=
  ∀ (s : State) (L : Launch) (addr v : Byte) (image : List Byte), s.Inv →
    (s.reinit L).Inv ∧ (hostWrite addr v s).Inv ∧ (hostAbort s).Inv ∧
      ∀ t, loadImage image s = .next t → t.Inv

/-! ### The pins -/

/-- R260: `rst` = 1 at an edge resets the core, keeps memory, and abandons a step in progress without commit. The model's
own choices in it: every other input at that edge is ignored, so that a host write there does not reach memory (log 14);
an abort still waiting for the abandoned step is dropped (log 22); the output list is emptied (log 5, in
`State.launch`); and the output register is cleared, so that `out_valid` is low (log 15). -/
def Obligations.ResetAbandonsAStepInProgress : Prop :=
  ∀ (L : Launch) (p : Pins) (c : Clocked), p.rst = true →
    ∃ d, clockEdge L p c = .next d ∧ d.core = State.launch L c.core.mem ∧ d.busy = false ∧
      d.abortPending = false ∧ (outputs p d).outValid = false

/-- R237: while a step is in progress host writes and `step` pulses are ignored. -/
def Obligations.HostWritesAreIgnoredWhileBusy : Prop :=
  ∀ (L : Launch) (p : Pins) (c : Clocked) (we st : Bool) (addr data : Byte), p.rst = false → c.busy = true →
    clockEdge L { p with hostWe := we, hostAddr := addr, hostWdata := data, step := st } c = clockEdge L p c

/-- R237, R239, R228, D12: at an edge between steps without reset, the host's write lands; an abort asked for then takes
effect at once (what it does is `hostAbort`); and a step starts exactly when one is asked for, no abort is, and the
machine is running. That the write comes before the abort and the abort before the request is the model's choice
(log 16). -/
def Obligations.ARequestStartsAStepOnlyWhileRunning : Prop :=
  ∀ (L : Launch) (p : Pins) (c : Clocked), p.rst = false → c.phase = .idle →
    let written : State :=
      if p.hostWe then { c.core with mem := c.core.mem.write p.hostAddr.toNat p.hostWdata } else c.core
    ∃ d, clockEdge L p c = .next d ∧ d.abortPending = false ∧
      d.core = (if p.abort || c.abortPending then hostAbort written else written) ∧
      (d.busy = true ↔ (p.run = true ∨ p.step = true) ∧ p.abort = false ∧ c.abortPending = false ∧
        c.core.running = true)

/-- R235, R237, R238: the status and inspection pins show the state in every cycle, busy or not; `host_rdata` shows the
memory byte asked for with `busy` = 0; and `out_valid` is 1 exactly when the output register holds an emitted byte,
`out_data` then being that byte. That a register stands behind these two pins is the model's choice (log 15). -/
def Obligations.TheInspectionPinsShowTheState : Prop :=
  ∀ (p : Pins) (c : Clocked),
    (outputs p c).busy = c.busy ∧ (outputs p c).running = c.core.running ∧
    (outputs p c).haltCause = c.core.haltCause.code ∧ (outputs p c).dbgPc = c.core.pc ∧
    (outputs p c).dbgFl = c.core.fl ∧
    (outputs p c).dbgReg = c.core.regs[p.dbgRegSel.toNat]'(p.dbgRegSel.isLt) ∧
    (c.busy = false → (outputs p c).hostRdata = c.core.mem.read p.hostAddr.toNat) ∧
    (c.outPort = none → (outputs p c).outValid = false) ∧
    (∀ v, c.outPort = some v → (outputs p c).outValid = true ∧ (outputs p c).outData = v)

/-- R270, R228, R238: the micro-sequence is a refinement of the step. From FETCH, with no reset, the block is busy and its
architectural state untouched for all of the step's cycles but the last (1 to 4 in all, `stepCycles`); after the last
the state is what `step` gives, stopped by an abort asked for in any of these cycles; and the output register holds what
the step emitted. The model's own choices in it: the sequencer stands outside State (log 12); under `run` the next FETCH
follows the committing edge (log 13); the output register is loaded at that edge (log 15). -/
def Obligations.TheMicroSequenceRefinesTheStep : Prop :=
  ∀ (L : Launch) (c : Clocked) (t : State) (ps : List Pins), c.phase = .fetch → c.core.running = true →
    step c.core = .next t → ps.length = stepCycles c.core → (∀ p ∈ ps, p.rst = false) →
    (∀ k, k < ps.length → ∃ e, clockEdges L (ps.take k) c = .next e ∧ e.busy = true ∧ e.core = c.core) ∧
    ∃ d, clockEdges L ps c = .next d ∧
      d.core = (if c.abortPending || ps.any (fun p => p.abort) then hostAbort t else t) ∧
      d.abortPending = false ∧ t.output = c.core.output ++ d.outPort.toList ∧
      (d.phase = .idle ∨ d.phase = .fetch ∧ d.core.running = true)

/-- R270: the number of cycles of a step. 1 for an invalid opcode, and for a fetch that faults; 2 for HLT, RET, the
reserved no-ops and a JEQ or JNE not taken, at every pc below 256; 3 for the others with one operand and 4 for LDI, ADD,
MUL, CMP, XOR, where the operand bytes they read lie in memory; where one does not, the step ends in the cycle that
reads it. -/
def Obligations.CyclesPerInstruction : Prop :=
  ∀ s : State,
    let opc := s.mem.read s.pc.toNat
    (256 ≤ s.pc.toNat → stepCycles s = 1) ∧
    (s.pc.toNat < 256 →
      (dispatchRom opc = none → stepCycles s = 1) ∧
      (opc ∈ [0x01#8, 0x11#8, 0x69#8, 0xA4#8, 0xA8#8, 0xAA#8, 0xAC#8, 0xAD#8] → stepCycles s = 2) ∧
      (opc = 0x55#8 → stepCycles s = if s.fl = 1#3 ∧ s.pc.toNat + 1 < 256 then 3 else 2) ∧
      (opc = 0x56#8 → stepCycles s = if s.fl ≠ 1#3 ∧ s.pc.toNat + 1 < 256 then 3 else 2) ∧
      (opc ∈ [0x45#8, 0x46#8, 0x47#8, 0x50#8, 0x54#8] →
        stepCycles s = if s.pc.toNat + 1 < 256 then 3 else 2) ∧
      (opc ∈ [0x82#8, 0xA0#8, 0xA2#8, 0xA3#8, 0xA7#8] →
        stepCycles s = if s.pc.toNat + 2 < 256 then 4 else if s.pc.toNat + 1 < 256 then 3 else 2))
end

