-- ==== Sys2Proof/Laws/Decode.lean ====
section
/-! SUPPORT. The laws of the dispatch ROM: every handler is found under its own opcode, and no two share one. -/

namespace Sys2Proof

@[simp] theorem dispatchRom_opcode (h : HandlerId) : dispatchRom h.row.opcode = some h := by
  cases h <;> decide

theorem HandlerId.mem_all (h : HandlerId) : h ∈ HandlerId.all := by
  cases h <;> decide

/-- The ROM holds a handler exactly under its opcode (R78): decoding is unambiguous. -/
theorem dispatchRom_eq_some_iff (opc : Byte) (h : HandlerId) : dispatchRom opc = some h ↔ h.row.opcode = opc := by
  constructor
  · intro e
    simpa using List.find?_some e
  · rintro rfl
    exact dispatchRom_opcode h

theorem dispatchRom_eq_none_iff (opc : Byte) : dispatchRom opc = none ↔ ∀ h : HandlerId, h.row.opcode ≠ opc := by
  rw [← not_iff_not, ← ne_eq, Option.ne_none_iff_exists']
  simp [dispatchRom_eq_some_iff]

end Sys2Proof
end

