-- ==== Sys2Proof/Laws/Memory.lean ====
section
/-! SUPPORT. The laws of the memory list: read after write, writes elsewhere, and that every operation keeps the canonical form. -/

namespace Sys2Proof.Machine

@[simp] theorem Memory.read_nil (a : Nat) : Memory.read [] a = Config.unlistedByte := rfl

theorem Memory.read_cons (b : Nat) (v : Byte) (m : Memory) (a : Nat) :
    Memory.read ((b, v) :: m) a = if a = b then v else Memory.read m a := rfl

/-- An address with no entry reads as an unlisted one. -/
theorem Memory.read_of_not_listed (m : Memory) (a : Nat) (h : ∀ c ∈ m, c.1 ≠ a) :
    m.read a = Config.unlistedByte := by
  induction m with
  | nil => rfl
  | cons c m ih =>
    obtain ⟨b, v⟩ := c
    have hb : a ≠ b := fun e => h (b, v) (by simp) e.symm
    rw [Memory.read_cons, if_neg hb]
    exact ih fun c hc => h c (by simp [hc])

/-- A listed entry of a memory with rising addresses is what its address reads as. -/
theorem Memory.read_of_mem (m : Memory) (hm : m.Pairwise fun c d => c.1 < d.1) (a : Nat) (v : Byte)
    (h : (a, v) ∈ m) : m.read a = v := by
  induction m with
  | nil => cases h
  | cons c m ih =>
    obtain ⟨b, w⟩ := c
    rw [List.pairwise_cons] at hm
    rw [Memory.read_cons]
    rcases List.mem_cons.1 h with e | e
    · cases e; simp
    · rw [if_neg (Nat.ne_of_gt (hm.1 _ e)), ih hm.2 e]

theorem Memory.read_put (m : Memory) (a b : Nat) (v : Byte) :
    (m.put a v).read b = if b = a then v else m.read b := by
  induction m with
  | nil => simp [Memory.put, Memory.read_cons]
  | cons c m ih =>
    obtain ⟨k, w⟩ := c
    simp only [Memory.put]
    split
    · simp [Memory.read_cons]
    · split
      · next hk => subst hk; simp only [Memory.read_cons]; split <;> simp_all
      · next hk =>
        simp only [Memory.read_cons, ih]
        by_cases hb : b = k
        · subst hb; simp [Ne.symm hk]
        · simp [hb]

theorem Memory.read_filter_ne (m : Memory) (a b : Nat) :
    Memory.read (m.filter fun c => c.1 ≠ a) b = if b = a then Config.unlistedByte else m.read b := by
  induction m with
  | nil => simp
  | cons c m ih =>
    obtain ⟨k, w⟩ := c
    by_cases hk : k = a
    · subst hk
      rw [List.filter_cons_of_neg (by simp), ih, Memory.read_cons]
      split <;> simp_all
    · rw [List.filter_cons_of_pos (by simpa using hk), Memory.read_cons, Memory.read_cons, ih]
      by_cases hb : b = k
      · subst hb; simp [hk]
      · simp [hb]

/-- Read after write: the written byte at the address, what was there everywhere else (R52, R57, R60). -/
theorem Memory.read_write (m : Memory) (a b : Nat) (v : Byte) :
    (m.write a v).read b = if b = a then v else m.read b := by
  unfold Memory.write
  split
  · next h => rw [Memory.read_filter_ne, h]
  · exact Memory.read_put m a b v

@[simp] theorem Memory.read_write_same (m : Memory) (a : Nat) (v : Byte) : (m.write a v).read a = v := by
  simp [Memory.read_write]

@[simp] theorem Memory.read_write_other (m : Memory) {a b : Nat} (v : Byte) (h : b ≠ a) :
    (m.write a v).read b = m.read b := by
  simp [Memory.read_write, h]

/-! ### The canonical form -/

theorem Memory.wf_nil : Memory.wf [] := ⟨List.Pairwise.nil, by simp⟩

theorem Memory.mem_put {m : Memory} {a : Nat} {v : Byte} {c : Host.Cell} (h : c ∈ m.put a v) :
    c = (a, v) ∨ c ∈ m := by
  induction m with
  | nil => simpa [Memory.put] using h
  | cons d m ih =>
    obtain ⟨k, w⟩ := d
    simp only [Memory.put] at h
    split at h
    · simpa using h
    · split at h
      · rcases List.mem_cons.1 h with e | e
        · exact .inl e
        · exact .inr (by simp [e])
      · rcases List.mem_cons.1 h with e | e
        · exact .inr (by simp [e])
        · exact (ih e).imp_right fun e => by simp [e]

theorem Memory.pairwise_put {m : Memory} (hm : m.Pairwise fun c d => c.1 < d.1) (a : Nat) (v : Byte) :
    (m.put a v).Pairwise fun c d => c.1 < d.1 := by
  induction m with
  | nil => simp [Memory.put]
  | cons d m ih =>
    obtain ⟨k, w⟩ := d
    have hk := List.pairwise_cons.1 hm
    simp only [Memory.put]
    split
    · next h =>
      refine List.pairwise_cons.2 ⟨fun c hc => ?_, hm⟩
      rcases List.mem_cons.1 hc with e | e
      · simpa [e] using h
      · exact Nat.lt_trans h (hk.1 c e)
    · split
      · next h => subst h; exact List.pairwise_cons.2 ⟨hk.1, hk.2⟩
      · next h1 h2 =>
        refine List.pairwise_cons.2 ⟨fun c hc => ?_, ih hk.2⟩
        rcases Memory.mem_put hc with e | e
        · simp only [e]; omega
        · exact hk.1 c e

/-- Every write below address 256 keeps the canonical form. -/
theorem Memory.wf_write {m : Memory} (hm : m.wf) {a : Nat} (ha : a < 256) (v : Byte) : (m.write a v).wf := by
  unfold Memory.write
  split
  · exact ⟨hm.1.filter _, fun c hc => hm.2 c (List.mem_of_mem_filter hc)⟩
  · next h =>
    refine ⟨Memory.pairwise_put hm.1 a v, fun c hc => ?_⟩
    rcases Memory.mem_put hc with e | e
    · subst e; exact ⟨ha, h⟩
    · exact hm.2 c e

/-- A load that stays below address 256 keeps the canonical form. -/
theorem Memory.wf_store {m : Memory} (hm : m.wf) (bs : List Byte) (a : Nat) (ha : a + bs.length ≤ 256) :
    (m.store a bs).wf := by
  induction bs generalizing m a with
  | nil => exact hm
  | cons b bs ih =>
    simp only [List.length_cons] at ha
    exact ih (Memory.wf_write hm (by omega) b) (a + 1) (by omega)

/-- What a loaded memory reads as: the image at its addresses, what was there elsewhere. -/
theorem Memory.read_store (m : Memory) (bs : List Byte) (a b : Nat) :
    (m.store a bs).read b = if h : a ≤ b ∧ b - a < bs.length then bs[b - a] else m.read b := by
  induction bs generalizing m a with
  | nil => simp [Memory.store]
  | cons c bs ih =>
    rw [Memory.store, ih, Memory.read_write]
    by_cases h1 : b = a
    · subst h1; simp
    · by_cases h2 : a + 1 ≤ b ∧ b - (a + 1) < bs.length
      · have h3 : a ≤ b ∧ b - a < (c :: bs).length := by
          simp only [List.length_cons]; omega
        rw [dif_pos h2, dif_pos h3]
        have h4 : b - a = (b - (a + 1)) + 1 := by omega
        simp [h4]
      · have h3 : ¬ (a ≤ b ∧ b - a < (c :: bs).length) := by
          simp only [List.length_cons]; omega
        rw [dif_neg h2, dif_neg h3, if_neg h1]

/-- In canonical form an address is listed exactly when it does not read as an unlisted one. -/
theorem Memory.mem_iff_read {m : Memory} (hm : m.wf) (a : Nat) (v : Byte) :
    (a, v) ∈ m ↔ m.read a = v ∧ v ≠ Config.unlistedByte := by
  constructor
  · intro h
    exact ⟨Memory.read_of_mem m hm.1 a v h, (hm.2 _ h).2⟩
  · rintro ⟨h, hv⟩
    by_contra hn
    apply hv
    rw [← h]
    apply Memory.read_of_not_listed
    rintro ⟨k, w⟩ hc rfl
    have hw := Memory.read_of_mem m hm.1 k w hc
    rw [h] at hw
    exact hn (hw ▸ hc)

end Sys2Proof.Machine
end

