-- ==== Sys2Proof/Laws/State.lean ====
section
/-! SUPPORT. One lemma per field per update of State, so that no later proof unfolds a record update. -/

namespace Sys2Proof.Machine

/-! ### State.setReg -/

@[simp] theorem State.setReg_regs (s : State) (r : Fin 8) (v : Byte) : (s.setReg r v).regs = s.regs.set r.val v := rfl
@[simp] theorem State.setReg_fl (s : State) (r : Fin 8) (v : Byte) : (s.setReg r v).fl = s.fl := rfl
@[simp] theorem State.setReg_pc (s : State) (r : Fin 8) (v : Byte) : (s.setReg r v).pc = s.pc := rfl
@[simp] theorem State.setReg_running (s : State) (r : Fin 8) (v : Byte) : (s.setReg r v).running = s.running := rfl
@[simp] theorem State.setReg_haltCause (s : State) (r : Fin 8) (v : Byte) : (s.setReg r v).haltCause = s.haltCause := rfl
@[simp] theorem State.setReg_mem (s : State) (r : Fin 8) (v : Byte) : (s.setReg r v).mem = s.mem := rfl
@[simp] theorem State.setReg_output (s : State) (r : Fin 8) (v : Byte) : (s.setReg r v).output = s.output := rfl

/-! ### State.setFlags -/

@[simp] theorem State.setFlags_regs (s : State) (f : FlagBits) : (s.setFlags f).regs = s.regs := rfl
@[simp] theorem State.setFlags_fl (s : State) (f : FlagBits) : (s.setFlags f).fl = f := rfl
@[simp] theorem State.setFlags_pc (s : State) (f : FlagBits) : (s.setFlags f).pc = s.pc := rfl
@[simp] theorem State.setFlags_running (s : State) (f : FlagBits) : (s.setFlags f).running = s.running := rfl
@[simp] theorem State.setFlags_haltCause (s : State) (f : FlagBits) : (s.setFlags f).haltCause = s.haltCause := rfl
@[simp] theorem State.setFlags_mem (s : State) (f : FlagBits) : (s.setFlags f).mem = s.mem := rfl
@[simp] theorem State.setFlags_output (s : State) (f : FlagBits) : (s.setFlags f).output = s.output := rfl
@[simp] theorem State.reg_setFlags (s : State) (f : FlagBits) (q : Fin 8) : (s.setFlags f).reg q = s.reg q := rfl
@[simp] theorem State.sp_setFlags (s : State) (f : FlagBits) : (s.setFlags f).sp = s.sp := rfl

/-! ### State.jump -/

@[simp] theorem State.jump_regs (s : State) (v : Byte) : (s.jump v).regs = s.regs := rfl
@[simp] theorem State.jump_fl (s : State) (v : Byte) : (s.jump v).fl = s.fl := rfl
@[simp] theorem State.jump_pc (s : State) (v : Byte) : (s.jump v).pc = v.setWidth 9 := rfl
@[simp] theorem State.jump_running (s : State) (v : Byte) : (s.jump v).running = s.running := rfl
@[simp] theorem State.jump_haltCause (s : State) (v : Byte) : (s.jump v).haltCause = s.haltCause := rfl
@[simp] theorem State.jump_mem (s : State) (v : Byte) : (s.jump v).mem = s.mem := rfl
@[simp] theorem State.jump_output (s : State) (v : Byte) : (s.jump v).output = s.output := rfl
@[simp] theorem State.reg_jump (s : State) (v : Byte) (q : Fin 8) : (s.jump v).reg q = s.reg q := rfl
@[simp] theorem State.sp_jump (s : State) (v : Byte) : (s.jump v).sp = s.sp := rfl

/-! ### State.advance -/

@[simp] theorem State.advance_regs (s : State) (n : Nat) : (s.advance n).regs = s.regs := rfl
@[simp] theorem State.advance_fl (s : State) (n : Nat) : (s.advance n).fl = s.fl := rfl
@[simp] theorem State.advance_pc (s : State) (n : Nat) : (s.advance n).pc = s.pc + BitVec.ofNat 9 n := rfl
@[simp] theorem State.advance_running (s : State) (n : Nat) : (s.advance n).running = s.running := rfl
@[simp] theorem State.advance_haltCause (s : State) (n : Nat) : (s.advance n).haltCause = s.haltCause := rfl
@[simp] theorem State.advance_mem (s : State) (n : Nat) : (s.advance n).mem = s.mem := rfl
@[simp] theorem State.advance_output (s : State) (n : Nat) : (s.advance n).output = s.output := rfl
@[simp] theorem State.reg_advance (s : State) (n : Nat) (q : Fin 8) : (s.advance n).reg q = s.reg q := rfl
@[simp] theorem State.sp_advance (s : State) (n : Nat) : (s.advance n).sp = s.sp := rfl

/-! ### State.emit -/

@[simp] theorem State.emit_regs (s : State) (v : Byte) : (s.emit v).regs = s.regs := rfl
@[simp] theorem State.emit_fl (s : State) (v : Byte) : (s.emit v).fl = s.fl := rfl
@[simp] theorem State.emit_pc (s : State) (v : Byte) : (s.emit v).pc = s.pc := rfl
@[simp] theorem State.emit_running (s : State) (v : Byte) : (s.emit v).running = s.running := rfl
@[simp] theorem State.emit_haltCause (s : State) (v : Byte) : (s.emit v).haltCause = s.haltCause := rfl
@[simp] theorem State.emit_mem (s : State) (v : Byte) : (s.emit v).mem = s.mem := rfl
@[simp] theorem State.emit_output (s : State) (v : Byte) : (s.emit v).output = s.output ++ [v] := rfl
@[simp] theorem State.reg_emit (s : State) (v : Byte) (q : Fin 8) : (s.emit v).reg q = s.reg q := rfl
@[simp] theorem State.sp_emit (s : State) (v : Byte) : (s.emit v).sp = s.sp := rfl

/-! ### State.halt -/

@[simp] theorem State.halt_regs (s : State) (c : HaltCause) : (s.halt c).regs = s.regs := rfl
@[simp] theorem State.halt_fl (s : State) (c : HaltCause) : (s.halt c).fl = s.fl := rfl
@[simp] theorem State.halt_pc (s : State) (c : HaltCause) : (s.halt c).pc = s.pc := rfl
@[simp] theorem State.halt_running (s : State) (c : HaltCause) : (s.halt c).running = false := rfl
@[simp] theorem State.halt_haltCause (s : State) (c : HaltCause) : (s.halt c).haltCause = c := rfl
@[simp] theorem State.halt_mem (s : State) (c : HaltCause) : (s.halt c).mem = s.mem := rfl
@[simp] theorem State.halt_output (s : State) (c : HaltCause) : (s.halt c).output = s.output := rfl
@[simp] theorem State.reg_halt (s : State) (c : HaltCause) (q : Fin 8) : (s.halt c).reg q = s.reg q := rfl
@[simp] theorem State.sp_halt (s : State) (c : HaltCause) : (s.halt c).sp = s.sp := rfl

/-! ### Registers -/

theorem State.reg_setReg (s : State) (r q : Fin 8) (v : Byte) :
    (s.setReg r v).reg q = if r = q then v else s.reg q := by
  simp only [State.reg, State.setReg, Vector.getElem_set, Fin.ext_iff]

@[simp] theorem State.reg_setReg_same (s : State) (r : Fin 8) (v : Byte) : (s.setReg r v).reg r = v := by
  simp [State.reg_setReg]

@[simp] theorem State.reg_setReg_other (s : State) {r q : Fin 8} (v : Byte) (h : r ≠ q) :
    (s.setReg r v).reg q = s.reg q := by
  simp [State.reg_setReg, h]

@[simp] theorem State.sp_setReg_seven (s : State) (v : Byte) : (s.setReg 7 v).sp = v := by
  simp [State.sp]

/-- Two states with the same registers, one by one, have the same register file. -/
theorem State.regs_ext {s t : State} (h : ∀ r : Fin 8, s.reg r = t.reg r) : s.regs = t.regs := by
  apply Vector.ext
  intro i hi
  exact h ⟨i, hi⟩

/-! ### Launch and fault entry -/

@[simp] theorem State.launch_fl (L : Launch) (m : Memory) : (State.launch L m).fl = 0 := rfl
@[simp] theorem State.launch_pc (L : Launch) (m : Memory) : (State.launch L m).pc = 0 := rfl
@[simp] theorem State.launch_running (L : Launch) (m : Memory) : (State.launch L m).running = true := rfl
@[simp] theorem State.launch_haltCause (L : Launch) (m : Memory) : (State.launch L m).haltCause = .none := rfl
@[simp] theorem State.launch_mem (L : Launch) (m : Memory) : (State.launch L m).mem = m := rfl
@[simp] theorem State.launch_output (L : Launch) (m : Memory) : (State.launch L m).output = [] := rfl

@[simp] theorem State.takeFault_outOfBounds (s : State) :
    s.takeFault .outOfBounds = { s with running := false, haltCause := .outOfBounds } := rfl

@[simp] theorem State.takeFault_unsupportedOperation (s : State) :
    s.takeFault .unsupportedOperation = { s with running := false, haltCause := .unsupportedOperation } := rfl

@[simp] theorem State.takeFault_invalidInstruction (s : State) :
    s.takeFault .invalidInstruction = { s with running := false, haltCause := .invalidInstruction, pc := 0 } := rfl

/-- Fault entry writes `running`, `halt_cause` and for an invalid opcode `pc`, and nothing else (R221, R222). -/
theorem State.takeFault_frame (s : State) (c : HaltCause) :
    (s.takeFault c).regs = s.regs ∧ (s.takeFault c).fl = s.fl ∧ (s.takeFault c).mem = s.mem ∧
      (s.takeFault c).output = s.output ∧ (s.takeFault c).running = false ∧ (s.takeFault c).haltCause = c := by
  cases c <;> exact ⟨rfl, rfl, rfl, rfl, rfl, rfl⟩

end Sys2Proof.Machine
end

