-- ==== Sys2Proof/Laws/Ops.lean ====
section
/-! SUPPORT. One law per shared operation: everything it can answer, and when. -/

namespace Sys2Proof.Machine

/-! ### The sequence of two statements -/

@[simp] theorem Result.ok_bind {α β : Type} (a : α) (f : α → Result β) :
    ((Except.ok a : Result α) >>= f) = f a := rfl

@[simp] theorem Result.error_bind {α β : Type} (c : HaltCause) (f : α → Result β) :
    ((Except.error c : Result α) >>= f) = Except.error c := rfl

theorem Result.bind_eq_ok_iff {α β : Type} (r : Result α) (f : α → Result β) (b : β) :
    (r >>= f) = Except.ok b ↔ ∃ a, r = Except.ok a ∧ f a = Except.ok b := by
  cases r <;> simp

theorem Result.bind_eq_error_iff {α β : Type} (r : Result α) (f : α → Result β) (c : HaltCause) :
    (r >>= f) = Except.error c ↔ r = Except.error c ∨ ∃ a, r = Except.ok a ∧ f a = Except.error c := by
  cases r <;> simp

/-! ### Memory accesses -/

theorem memRead_of_lt (s : State) {a : Nat} (h : a < 256) : memRead s a = .ok (s.mem.read a) := by
  simp [memRead, Nat.not_le.2 h]

theorem memRead_of_ge (s : State) {a : Nat} (h : 256 ≤ a) : memRead s a = .error .outOfBounds := by
  simp [memRead, h]

/-- A byte is always an address. -/
@[simp] theorem memRead_byte (s : State) (a : Byte) : memRead s a.toNat = .ok (s.mem.read a.toNat) :=
  memRead_of_lt s a.isLt

theorem memWrite_of_lt (s : State) {a : Nat} (v : Nat) (h : a < 256) :
    memWrite s a v = .ok { s with mem := s.mem.write a (BitVec.ofNat 8 v) } := by
  simp [memWrite, Nat.not_le.2 h]

theorem memWrite_of_ge (s : State) {a : Nat} (v : Nat) (h : 256 ≤ a) : memWrite s a v = .error .outOfBounds := by
  simp [memWrite, h]

@[simp] theorem memWrite_byte (s : State) (a : Byte) (v : Nat) :
    memWrite s a.toNat v = .ok { s with mem := s.mem.write a.toNat (BitVec.ofNat 8 v) } :=
  memWrite_of_lt s v a.isLt

/-- Everything a memory write can do. -/
theorem memWrite_eq_ok {s t : State} {a v : Nat} (h : memWrite s a v = .ok t) :
    a < 256 ∧ t = { s with mem := s.mem.write a (BitVec.ofNat 8 v) } := by
  unfold memWrite at h
  split at h
  · cases h
  · next ha => cases h; exact ⟨Nat.lt_of_not_le ha, rfl⟩

/-! ### Register accesses -/

theorem readReg_of_lt (s : State) {i : Byte} (h : i.toNat < 8) : readReg s i = .ok (s.reg ⟨i.toNat, h⟩) := by
  simp [readReg, h]

theorem readReg_of_ge (s : State) {i : Byte} (h : 8 ≤ i.toNat) : readReg s i = .error .outOfBounds := by
  simp [readReg, Nat.not_lt.2 h]

theorem writeReg_of_lt (s : State) {i : Byte} (v : Nat) (h : i.toNat < 8) :
    writeReg s i v = .ok (s.setReg ⟨i.toNat, h⟩ (BitVec.ofNat 8 v)) := by
  simp [writeReg, h]

theorem writeReg_of_ge (s : State) {i : Byte} (v : Nat) (h : 8 ≤ i.toNat) :
    writeReg s i v = .error .outOfBounds := by
  simp [writeReg, Nat.not_lt.2 h]

theorem readReg_eq_ok {s : State} {i v : Byte} (h : readReg s i = .ok v) :
    ∃ hi : i.toNat < 8, v = s.reg ⟨i.toNat, hi⟩ := by
  by_cases hi : i.toNat < 8
  · rw [readReg_of_lt s hi] at h; cases h; exact ⟨hi, rfl⟩
  · rw [readReg_of_ge s (Nat.le_of_not_lt hi)] at h; cases h

theorem writeReg_eq_ok {s t : State} {i : Byte} {v : Nat} (h : writeReg s i v = .ok t) :
    ∃ hi : i.toNat < 8, t = s.setReg ⟨i.toNat, hi⟩ (BitVec.ofNat 8 v) := by
  by_cases hi : i.toNat < 8
  · rw [writeReg_of_lt s v hi] at h; cases h; exact ⟨hi, rfl⟩
  · rw [writeReg_of_ge s v (Nat.le_of_not_lt hi)] at h; cases h

theorem readReg_eq_error {s : State} {i : Byte} {c : HaltCause} (h : readReg s i = .error c) :
    c = .outOfBounds ∧ 8 ≤ i.toNat := by
  by_cases hi : i.toNat < 8
  · rw [readReg_of_lt s hi] at h; cases h
  · rw [readReg_of_ge s (Nat.le_of_not_lt hi)] at h; cases h; exact ⟨rfl, Nat.le_of_not_lt hi⟩

theorem writeReg_eq_error {s : State} {i : Byte} {v : Nat} {c : HaltCause} (h : writeReg s i v = .error c) :
    c = .outOfBounds ∧ 8 ≤ i.toNat := by
  by_cases hi : i.toNat < 8
  · rw [writeReg_of_lt s v hi] at h; cases h
  · rw [writeReg_of_ge s v (Nat.le_of_not_lt hi)] at h; cases h; exact ⟨rfl, Nat.le_of_not_lt hi⟩

/-! ### The stack pointer -/

theorem spDec_of_pos (s : State) (h : 0 < s.sp.toNat) :
    spDec s = .ok (s.setReg 7 (BitVec.ofNat 8 (s.sp.toNat - 1))) := by
  simp only [spDec, if_neg (Nat.not_lt.2 h)]

theorem spDec_of_zero (s : State) (h : s.sp.toNat = 0) : spDec s = .error .outOfBounds := by
  simp [spDec, h]

theorem spInc_of_lt (s : State) (h : s.sp.toNat < 255) :
    spInc s = .ok (s.setReg 7 (BitVec.ofNat 8 (s.sp.toNat + 1))) := by
  simp only [spInc, if_neg (Nat.not_lt.2 h)]

theorem spInc_of_top (s : State) (h : s.sp.toNat = 255) : spInc s = .error .outOfBounds := by
  simp [spInc, h]

theorem spDec_eq_ok {s t : State} (h : spDec s = .ok t) :
    0 < s.sp.toNat ∧ t = s.setReg 7 (BitVec.ofNat 8 (s.sp.toNat - 1)) := by
  unfold spDec at h
  split at h
  · cases h
  · cases h; exact ⟨by omega, rfl⟩

theorem spInc_eq_ok {s t : State} (h : spInc s = .ok t) :
    s.sp.toNat < 255 ∧ t = s.setReg 7 (BitVec.ofNat 8 (s.sp.toNat + 1)) := by
  unfold spInc at h
  split at h
  · cases h
  · cases h; exact ⟨by omega, rfl⟩

theorem spDec_eq_error {s : State} {c : HaltCause} (h : spDec s = .error c) :
    c = .outOfBounds ∧ s.sp.toNat = 0 := by
  unfold spDec at h
  split at h
  · cases h; exact ⟨rfl, by omega⟩
  · cases h

theorem spInc_eq_error {s : State} {c : HaltCause} (h : spInc s = .error c) :
    c = .outOfBounds ∧ s.sp.toNat = 255 := by
  unfold spInc at h
  split at h
  · cases h; exact ⟨rfl, by have := s.sp.isLt; omega⟩
  · cases h

/-- The pushed SP as a byte: one less, with no wrap. -/
theorem ofNat_sp_sub_one (v : Byte) (h : 0 < v.toNat) : BitVec.ofNat 8 (v.toNat - 1) = v - 1 := by
  apply BitVec.eq_of_toNat_eq
  have hv := v.isLt
  simp only [BitVec.toNat_sub, BitVec.toNat_ofNat, BitVec.ofNat_eq_ofNat]
  omega

/-- The popped SP as a byte: one more. -/
theorem ofNat_sp_add_one (v : Byte) : BitVec.ofNat 8 (v.toNat + 1) = v + 1 := by
  apply BitVec.eq_of_toNat_eq
  simp

/-! ### Operands -/

theorem operand1_of_lt (s : State) (b : Byte) (h : s.pc.toNat + 1 < 256) : operand1 s b = .ok b := by
  simp [operand1, Nat.not_le.2 h]

theorem operand1_of_ge (s : State) (b : Byte) (h : 256 ≤ s.pc.toNat + 1) : operand1 s b = .error .outOfBounds := by
  simp [operand1, h]

theorem operand2_of_lt (s : State) (b : Byte) (h : s.pc.toNat + 2 < 256) : operand2 s b = .ok b := by
  simp [operand2, Nat.not_le.2 h]

theorem operand2_of_ge (s : State) (b : Byte) (h : 256 ≤ s.pc.toNat + 2) : operand2 s b = .error .outOfBounds := by
  simp [operand2, h]

theorem operand1_eq_ok {s : State} {b v : Byte} (h : operand1 s b = .ok v) : s.pc.toNat + 1 < 256 ∧ v = b := by
  unfold operand1 at h
  split at h
  · cases h
  · next hp => cases h; exact ⟨Nat.lt_of_not_le hp, rfl⟩

theorem operand2_eq_ok {s : State} {b v : Byte} (h : operand2 s b = .ok v) : s.pc.toNat + 2 < 256 ∧ v = b := by
  unfold operand2 at h
  split at h
  · cases h
  · next hp => cases h; exact ⟨Nat.lt_of_not_le hp, rfl⟩

theorem operand1_eq_error {s : State} {b : Byte} {c : HaltCause} (h : operand1 s b = .error c) :
    c = .outOfBounds ∧ 256 ≤ s.pc.toNat + 1 := by
  unfold operand1 at h
  split at h
  · next hp => cases h; exact ⟨rfl, hp⟩
  · cases h

theorem operand2_eq_error {s : State} {b : Byte} {c : HaltCause} (h : operand2 s b = .error c) :
    c = .outOfBounds ∧ 256 ≤ s.pc.toNat + 2 := by
  unfold operand2 at h
  split at h
  · next hp => cases h; exact ⟨rfl, hp⟩
  · cases h

@[simp] theorem immediate_toByte (b : Byte) : BitVec.ofNat 8 (immediate b) = b := by
  apply BitVec.eq_of_toNat_eq
  simp [immediate, Nat.mod_eq_of_lt b.isLt]

/-! ### The compare function and the end of a step -/

theorem legalFlags_aluCompare (a b : Byte) : legalFlags (aluCompare a b) = true := by
  unfold aluCompare
  split
  · decide
  · split <;> decide

theorem aluCompare_eq_flEqual_iff (a b : Byte) : aluCompare a b = flEqual ↔ a = b := by
  unfold aluCompare
  split
  · next h => exact ⟨fun _ => BitVec.eq_of_toNat_eq h, fun _ => rfl⟩
  · next h =>
    refine ⟨fun hc => ?_, fun e => absurd (congrArg BitVec.toNat e) h⟩
    split at hc <;> exact absurd hc (by decide)

@[simp] theorem complete_error (h : HandlerId) (s : State) (c : HaltCause) :
    complete h s (.error c) = .next (s.takeFault c) := rfl

theorem complete_ok (h : HandlerId) (s t : State) :
    complete h s (.ok t) =
      .next (if h.row.controlsPc then t else t.advance (h.row.operandCount.toNat + 1)) := rfl

/-- The end of a step always answers a next state: a fault entry from the state the step began with, or what the
handler left, advanced if the ROM says so. -/
theorem complete_eq_next {h : HandlerId} {s u : State} {r : Result State} (e : complete h s r = .next u) :
    (∃ c, r = .error c ∧ u = s.takeFault c) ∨
      ∃ t, r = .ok t ∧ u = if h.row.controlsPc then t else t.advance (h.row.operandCount.toNat + 1) := by
  cases r with
  | error c => cases e; exact .inl ⟨c, rfl, rfl⟩
  | ok t => cases e; exact .inr ⟨t, rfl, rfl⟩

end Sys2Proof.Machine
end

