-- ==== Sys2Proof/Laws/Exec.lean ====
section
/-! SUPPORT. What executing an instruction and making a step can answer: always a next state. -/

namespace Sys2Proof.Machine

theorem complete_next (h : HandlerId) (s : State) (r : Result State) : ∃ u, complete h s r = .next u := by
  cases r <;> exact ⟨_, rfl⟩

/-- No instruction faults or is refused. -/
theorem exec_next (i : Instr) (s : State) : ∃ u, exec i s = .next u := by
  cases i <;>
    simp only [exec, execHlt, execRet, execPush, execPop, execPrn, execCall, execJmp, execJeq, execJne, execNot,
      execLdi, execAdd, execMul, execXor, execMod, execCmp, execAnd, execOr, execShl, execShr] <;>
    exact complete_next _ _ _

/-- No step faults or is refused. -/
theorem step_next (s : State) : ∃ u, step s = .next u := by
  unfold step
  split
  · split
    · exact exec_next _ _
    · exact ⟨_, rfl⟩
  · exact ⟨_, rfl⟩

/-- Everything fetch and decode can answer (R102, R103, R226). -/
theorem fetchDecode_cases (s : State) :
    (256 ≤ s.pc.toNat ∧ fetchDecode s = .error .outOfBounds) ∨
    (s.pc.toNat < 256 ∧ dispatchRom (s.mem.read s.pc.toNat) = none ∧ fetchDecode s = .error .invalidInstruction) ∨
    ∃ h : HandlerId, s.pc.toNat < 256 ∧ dispatchRom (s.mem.read s.pc.toNat) = some h ∧
      ∃ b1 b2 : Byte, fetchDecode s = .ok (h.instr b1 b2) ∧
        (1 ≤ h.row.operandCount.toNat → b1 = windowByte s (s.pc.toNat + 1)) ∧
        (2 ≤ h.row.operandCount.toNat → b2 = windowByte s (s.pc.toNat + 2)) := by
  by_cases hp : s.pc.toNat < 256
  · right
    have hf : fetchWindow s = .ok [s.mem.read s.pc.toNat, windowByte s (s.pc.toNat + 1),
        windowByte s (s.pc.toNat + 2)] := by
      simp [fetchWindow, memRead_of_lt s hp]
    cases hr : dispatchRom (s.mem.read s.pc.toNat) with
    | none => exact .inl ⟨hp, rfl, by simp [fetchDecode, hf, decode, hr]⟩
    | some h =>
      right
      refine ⟨h, hp, rfl, if 1 ≤ h.row.operandCount.toNat then windowByte s (s.pc.toNat + 1) else 0,
        if 2 ≤ h.row.operandCount.toNat then windowByte s (s.pc.toNat + 2) else 0, ?_,
        fun h1 => if_pos h1, fun h2 => if_pos h2⟩
      simp only [fetchDecode, hf, Result.ok_bind, decode, hr]
      cases h <;> rfl
  · exact .inl ⟨Nat.le_of_not_lt hp, by
      simp [fetchDecode, fetchWindow, memRead_of_ge s (Nat.le_of_not_lt hp)]⟩

/-- Everything a step can do. -/
theorem step_cases (s : State) :
    (s.running = false ∧ step s = .next s) ∨
    (s.running = true ∧ ∃ c, fetchDecode s = .error c ∧ step s = .next (s.takeFault c)) ∨
    (s.running = true ∧ ∃ i, fetchDecode s = .ok i ∧ step s = exec i s) := by
  cases hr : s.running with
  | false => exact .inl ⟨rfl, by simp [step, hr]⟩
  | true =>
    right
    cases hf : fetchDecode s with
    | error c => exact .inl ⟨rfl, c, rfl, by simp [step, hr, hf]⟩
    | ok i => exact .inr ⟨rfl, i, rfl, by simp [step, hr, hf]⟩

end Sys2Proof.Machine
end

