-- ==== Sys2Proof/Laws/Handlers.lean ====
section
/-! SUPPORT. The laws of the handlers that several instructions share: the ALU handler and the jump. -/

namespace Sys2Proof.Machine

/-- Where its operands are readable and name registers, the ALU handler asks the ALU about the two registers and writes
its answer back. -/
theorem aluHandler_of_readable (op : AluOp) {d r : Byte} {s : State} (hd : d.toNat < 8) (hr : r.toNat < 8)
    (hp : s.pc.toNat + 2 < 256) :
    aluHandler op d r s = alu op (s.reg ⟨d.toNat, hd⟩) (s.reg ⟨r.toNat, hr⟩) >>= writeBack s d := by
  simp only [aluHandler, operand1_of_lt s d (by omega), operand2_of_lt s r hp, readReg_of_lt s hd,
    readReg_of_lt s hr, Result.ok_bind]

/-- Where an operand is not readable or names no register, it is OutOfBounds. -/
theorem aluHandler_of_unreadable (op : AluOp) {d r : Byte} {s : State}
    (h : 256 ≤ s.pc.toNat + 2 ∨ 8 ≤ d.toNat ∨ 8 ≤ r.toNat) : aluHandler op d r s = .error .outOfBounds := by
  unfold aluHandler
  by_cases h1 : s.pc.toNat + 1 < 256
  · by_cases h2 : s.pc.toNat + 2 < 256
    · by_cases h3 : d.toNat < 8
      · simp [operand1_of_lt s d h1, operand2_of_lt s r h2, readReg_of_lt s h3,
          readReg_of_ge s (show 8 ≤ r.toNat by omega)]
      · simp [operand1_of_lt s d h1, operand2_of_lt s r h2, readReg_of_ge s (Nat.le_of_not_lt h3)]
    · simp [operand1_of_lt s d h1, operand2_of_ge s r (Nat.le_of_not_lt h2)]
  · simp [operand1_of_ge s d (Nat.le_of_not_lt h1)]

/-- Everything the ALU handler can leave. -/
theorem aluHandler_eq_ok {op : AluOp} {d r : Byte} {s t : State} (h : aluHandler op d r s = .ok t) :
    ∃ (hd : d.toNat < 8) (hr : r.toNat < 8), s.pc.toNat + 2 < 256 ∧
      ∃ a, alu op (s.reg ⟨d.toNat, hd⟩) (s.reg ⟨r.toNat, hr⟩) = .ok a ∧ writeBack s d a = .ok t := by
  simp only [aluHandler, Result.bind_eq_ok_iff] at h
  obtain ⟨_, h1, _, h2, _, h3, _, h4, a, h5, h6⟩ := h
  obtain ⟨hp, rfl⟩ := operand2_eq_ok h2
  obtain ⟨_, rfl⟩ := operand1_eq_ok h1
  obtain ⟨hd, rfl⟩ := readReg_eq_ok h3
  obtain ⟨hr, rfl⟩ := readReg_eq_ok h4
  exact ⟨hd, hr, hp, a, h5, h6⟩

/-- Asked for one of its four operations, the ALU handler can only raise OutOfBounds. -/
theorem aluHandler_eq_error {op : AluOp} {d r : Byte} {s : State} {c : HaltCause} (ho : op ≠ .unrecognised)
    (h : aluHandler op d r s = .error c) : c = .outOfBounds := by
  by_cases hb : 256 ≤ s.pc.toNat + 2 ∨ 8 ≤ d.toNat ∨ 8 ≤ r.toNat
  · rw [aluHandler_of_unreadable op hb] at h; cases h; rfl
  · have hd : d.toNat < 8 := by omega
    have hr : r.toNat < 8 := by omega
    rw [aluHandler_of_readable op hd hr (by omega)] at h
    cases op with
    | unrecognised => exact absurd rfl ho
    | cmp => cases h
    | add => simp only [alu, Result.ok_bind, writeBack] at h; exact (writeReg_eq_error h).1
    | mul => simp only [alu, Result.ok_bind, writeBack] at h; exact (writeReg_eq_error h).1
    | xor => simp only [alu, Result.ok_bind, writeBack] at h; exact (writeReg_eq_error h).1

theorem jumpThrough_of_readable {d : Byte} {s : State} (hd : d.toNat < 8) (hp : s.pc.toNat + 1 < 256) :
    jumpThrough d s = .ok (s.jump (s.reg ⟨d.toNat, hd⟩)) := by
  simp [jumpThrough, operand1_of_lt s d hp, readReg_of_lt s hd]

theorem jumpThrough_of_unreadable {d : Byte} {s : State} (h : 256 ≤ s.pc.toNat + 1 ∨ 8 ≤ d.toNat) :
    jumpThrough d s = .error .outOfBounds := by
  unfold jumpThrough
  by_cases h1 : s.pc.toNat + 1 < 256
  · simp [operand1_of_lt s d h1, readReg_of_ge s (show 8 ≤ d.toNat by omega)]
  · simp [operand1_of_ge s d (Nat.le_of_not_lt h1)]

/-- Everything the jump can do. -/
theorem jumpThrough_cases (d : Byte) (s : State) :
    jumpThrough d s = .error .outOfBounds ∨
      ∃ hd : d.toNat < 8, s.pc.toNat + 1 < 256 ∧ jumpThrough d s = .ok (s.jump (s.reg ⟨d.toNat, hd⟩)) := by
  by_cases h : 256 ≤ s.pc.toNat + 1 ∨ 8 ≤ d.toNat
  · exact .inl (jumpThrough_of_unreadable h)
  · have hd : d.toNat < 8 := by omega
    exact .inr ⟨hd, by omega, jumpThrough_of_readable hd (by omega)⟩

end Sys2Proof.Machine
end

