-- ==== Sys2Proof/Laws/Effect.lean ====
section
/-! SUPPORT. The inversion of exec: for each instruction, everything it can do. Every frame and every invariant follows from it by cases, without unfolding a meaning again. -/

namespace Sys2Proof.Machine

/-- What the handler of an instruction leaves when it raises no fault, before the advance: the registers, Flags, pc,
memory and output of its rule (R120 to R122, R146 to R156, R173, R174, R190 to R194), and the conditions it met. -/
def Effect (s t : State) : Instr → Prop
  | .hlt => t = s.halt .hlt
  | .ret => s.sp.toNat < 255 ∧ t = (s.setReg 7 (s.sp + 1)).jump (s.mem.read s.sp.toNat)
  | .push d => ∃ hd : d.toNat < 8, s.pc.toNat + 1 < 256 ∧ 0 < s.sp.toNat ∧
      t = { s.setReg 7 (s.sp - 1) with
            mem := s.mem.write (s.sp.toNat - 1) ((s.setReg 7 (s.sp - 1)).reg ⟨d.toNat, hd⟩) }
  | .pop d => ∃ hd : d.toNat < 8, s.pc.toNat + 1 < 256 ∧
      (s.setReg ⟨d.toNat, hd⟩ (s.mem.read s.sp.toNat)).sp.toNat < 255 ∧
      t = (s.setReg ⟨d.toNat, hd⟩ (s.mem.read s.sp.toNat)).setReg 7
            ((s.setReg ⟨d.toNat, hd⟩ (s.mem.read s.sp.toNat)).sp + 1)
  | .prn d => ∃ hd : d.toNat < 8, s.pc.toNat + 1 < 256 ∧ t = s.emit (s.reg ⟨d.toNat, hd⟩)
  | .call d => ∃ hd : d.toNat < 8, s.pc.toNat + 1 < 256 ∧ 0 < s.sp.toNat ∧
      t = State.jump { s.setReg 7 (s.sp - 1) with
            mem := s.mem.write (s.sp.toNat - 1) (BitVec.ofNat 8 (s.pc.toNat + 2)) }
            ((s.setReg 7 (s.sp - 1)).reg ⟨d.toNat, hd⟩)
  | .jmp d => ∃ hd : d.toNat < 8, s.pc.toNat + 1 < 256 ∧ t = s.jump (s.reg ⟨d.toNat, hd⟩)
  | .jeq d => (s.fl = flEqual ∧ ∃ hd : d.toNat < 8, s.pc.toNat + 1 < 256 ∧ t = s.jump (s.reg ⟨d.toNat, hd⟩)) ∨
      (s.fl ≠ flEqual ∧ t = s.advance 2)
  | .jne d => (s.fl ≠ flEqual ∧ ∃ hd : d.toNat < 8, s.pc.toNat + 1 < 256 ∧ t = s.jump (s.reg ⟨d.toNat, hd⟩)) ∨
      (s.fl = flEqual ∧ t = s.advance 2)
  | .ldi d imm => ∃ hd : d.toNat < 8, s.pc.toNat + 2 < 256 ∧ t = s.setReg ⟨d.toNat, hd⟩ imm
  | .add d r => ∃ (hd : d.toNat < 8) (hr : r.toNat < 8), s.pc.toNat + 2 < 256 ∧
      t = s.setReg ⟨d.toNat, hd⟩ (BitVec.ofNat 8 (aluAdd (s.reg ⟨d.toNat, hd⟩) (s.reg ⟨r.toNat, hr⟩)))
  | .mul d r => ∃ (hd : d.toNat < 8) (hr : r.toNat < 8), s.pc.toNat + 2 < 256 ∧
      t = s.setReg ⟨d.toNat, hd⟩ (BitVec.ofNat 8 (aluMul (s.reg ⟨d.toNat, hd⟩) (s.reg ⟨r.toNat, hr⟩)))
  | .xor d r => ∃ (hd : d.toNat < 8) (hr : r.toNat < 8), s.pc.toNat + 2 < 256 ∧
      t = (s.setFlags (aluCompare (s.reg ⟨d.toNat, hd⟩) (s.reg ⟨r.toNat, hr⟩))).setReg ⟨d.toNat, hd⟩
            (BitVec.ofNat 8 (aluXor (s.reg ⟨d.toNat, hd⟩) (s.reg ⟨r.toNat, hr⟩)))
  | .cmp d r => ∃ (hd : d.toNat < 8) (hr : r.toNat < 8), s.pc.toNat + 2 < 256 ∧
      t = s.setFlags (aluCompare (s.reg ⟨d.toNat, hd⟩) (s.reg ⟨r.toNat, hr⟩))
  | .not _ => t = s
  | .and _ _ => t = s
  | .or _ _ => t = s
  | .shl _ _ => t = s
  | .shr _ _ => t = s
  | .mod _ _ => t = s

/-- The decremented SP is the address the store goes to. -/
theorem toNat_sp_sub_one (v : Byte) : (BitVec.ofNat 8 (v.toNat - 1)).toNat = v.toNat - 1 := by
  have := v.isLt
  simp only [BitVec.toNat_ofNat]
  omega

/-- Executing an instruction takes OutOfBounds from the state it began in (R221), or leaves its effect and the advance
(R101 step 4). -/
theorem exec_cases {i : Instr} {s u : State} (h : exec i s = .next u) :
    u = { s with running := false, haltCause := .outOfBounds } ∨
      ∃ t, Effect s t i ∧
        u = if i.handler.row.controlsPc then t else t.advance (i.handler.row.operandCount.toNat + 1) := by
  cases i
  case hlt => cases h; exact .inr ⟨_, rfl, rfl⟩
  case not => cases h; exact .inr ⟨_, rfl, rfl⟩
  case and => cases h; exact .inr ⟨_, rfl, rfl⟩
  case or => cases h; exact .inr ⟨_, rfl, rfl⟩
  case shl => cases h; exact .inr ⟨_, rfl, rfl⟩
  case shr => cases h; exact .inr ⟨_, rfl, rfl⟩
  case mod => cases h; exact .inr ⟨_, rfl, rfl⟩
  case ret =>
    by_cases hs : s.sp.toNat < 255
    · right
      simp only [exec, execRet, memRead_byte, Result.ok_bind, spInc_of_lt s hs] at h
      rw [complete_ok] at h
      cases h
      exact ⟨_, ⟨hs, by rw [ofNat_sp_add_one]⟩, rfl⟩
    · left
      simp only [exec, execRet, memRead_byte, Result.ok_bind, spInc_of_top s (by have := s.sp.isLt; omega)] at h
      cases h; rfl
  case push d =>
    simp only [exec, execPush] at h
    rcases complete_eq_next h with ⟨c, e, rfl⟩ | ⟨t, e, rfl⟩
    · left
      suffices c = .outOfBounds by subst this; rfl
      simp only [Result.bind_eq_error_iff] at e
      rcases e with e | ⟨d', h1, e | ⟨u, h2, e | ⟨v, h3, e⟩⟩⟩
      · exact (operand1_eq_error e).1
      · exact (spDec_eq_error e).1
      · exact (readReg_eq_error e).1
      · rw [memWrite_byte] at e; cases e
    · right
      refine ⟨t, ?_, rfl⟩
      simp only [Result.bind_eq_ok_iff] at e
      obtain ⟨d', h1, u, h2, v, h3, e⟩ := e
      obtain ⟨hp, rfl⟩ := operand1_eq_ok h1
      obtain ⟨hs, rfl⟩ := spDec_eq_ok h2
      obtain ⟨hd, rfl⟩ := readReg_eq_ok h3
      rw [memWrite_byte] at e; cases e
      refine ⟨hd, hp, hs, ?_⟩
      rw [State.sp_setReg_seven, toNat_sp_sub_one]
      simp only [ofNat_sp_sub_one _ hs, BitVec.ofNat_toNat, BitVec.setWidth_eq]
      rfl
  case pop d =>
    simp only [exec, execPop] at h
    rcases complete_eq_next h with ⟨c, e, rfl⟩ | ⟨t, e, rfl⟩
    · left
      suffices c = .outOfBounds by subst this; rfl
      simp only [Result.bind_eq_error_iff] at e
      rcases e with e | ⟨d', h1, e | ⟨u, h2, e | ⟨v, h3, e⟩⟩⟩
      · exact (operand1_eq_error e).1
      · rw [memRead_byte] at e; cases e
      · exact (writeReg_eq_error e).1
      · exact (spInc_eq_error e).1
    · right
      refine ⟨t, ?_, rfl⟩
      simp only [Result.bind_eq_ok_iff] at e
      obtain ⟨d', h1, u, h2, v, h3, e⟩ := e
      obtain ⟨hp, rfl⟩ := operand1_eq_ok h1
      rw [memRead_byte] at h2; cases h2
      obtain ⟨hd, rfl⟩ := writeReg_eq_ok h3
      obtain ⟨hs, rfl⟩ := spInc_eq_ok e
      rw [BitVec.ofNat_toNat, BitVec.setWidth_eq] at hs
      exact ⟨hd, hp, hs, by rw [BitVec.ofNat_toNat, BitVec.setWidth_eq, ofNat_sp_add_one]⟩
  case prn d =>
    simp only [exec, execPrn] at h
    rcases complete_eq_next h with ⟨c, e, rfl⟩ | ⟨t, e, rfl⟩
    · left
      suffices c = .outOfBounds by subst this; rfl
      simp only [Result.bind_eq_error_iff] at e
      rcases e with e | ⟨d', h1, e | ⟨u, h2, e ⟩⟩
      · exact (operand1_eq_error e).1
      · exact (readReg_eq_error e).1
      · cases e
    · right
      refine ⟨t, ?_, rfl⟩
      simp only [Result.bind_eq_ok_iff] at e
      obtain ⟨d', h1, u, h2, e⟩ := e
      obtain ⟨hp, rfl⟩ := operand1_eq_ok h1
      obtain ⟨hd, rfl⟩ := readReg_eq_ok h2
      cases e
      exact ⟨hd, hp, rfl⟩
  case ldi d imm =>
    simp only [exec, execLdi] at h
    rcases complete_eq_next h with ⟨c, e, rfl⟩ | ⟨t, e, rfl⟩
    · left
      suffices c = .outOfBounds by subst this; rfl
      simp only [Result.bind_eq_error_iff] at e
      rcases e with e | ⟨d', h1, e | ⟨u, h2, e ⟩⟩
      · exact (operand1_eq_error e).1
      · exact (operand2_eq_error e).1
      · exact (writeReg_eq_error e).1
    · right
      refine ⟨t, ?_, rfl⟩
      simp only [Result.bind_eq_ok_iff] at e
      obtain ⟨d', h1, u, h2, e⟩ := e
      obtain ⟨hp, rfl⟩ := operand1_eq_ok h1
      obtain ⟨hp, rfl⟩ := operand2_eq_ok h2
      obtain ⟨hd, rfl⟩ := writeReg_eq_ok e
      exact ⟨hd, hp, by rw [immediate_toByte]⟩
  case call d =>
    simp only [exec, execCall] at h
    rcases complete_eq_next h with ⟨c, e, rfl⟩ | ⟨t, e, rfl⟩
    · left
      suffices c = .outOfBounds by subst this; rfl
      simp only [Result.bind_eq_error_iff] at e
      rcases e with e | ⟨d', h1, e | ⟨u, h2, e | ⟨v, h3, e | ⟨w, h4, e⟩⟩⟩⟩
      · exact (operand1_eq_error e).1
      · exact (spDec_eq_error e).1
      · rw [memWrite_byte] at e; cases e
      · exact (readReg_eq_error e).1
      · cases e
    · right
      refine ⟨_, ?_, rfl⟩
      simp only [Result.bind_eq_ok_iff] at e
      obtain ⟨d', h1, u, h2, v, h3, w, h4, e⟩ := e
      obtain ⟨hp, rfl⟩ := operand1_eq_ok h1
      obtain ⟨hs, rfl⟩ := spDec_eq_ok h2
      rw [memWrite_byte] at h3; cases h3
      obtain ⟨hd, rfl⟩ := readReg_eq_ok h4
      cases e
      refine ⟨hd, hp, hs, ?_⟩
      simp only [State.sp_setReg_seven, toNat_sp_sub_one]
      simp only [ofNat_sp_sub_one _ hs]
      rfl
  case jmp d =>
    simp only [exec, execJmp] at h
    rcases jumpThrough_cases d s with e | ⟨hd, hp, e⟩
    · rw [e] at h; cases h; exact .inl rfl
    · rw [e] at h; cases h; exact .inr ⟨_, ⟨hd, hp, rfl⟩, rfl⟩
  case jeq d =>
    simp only [exec, execJeq] at h
    by_cases hf : s.fl = flEqual
    · rw [if_pos (by simp [State.flagsEqual, hf])] at h
      rcases jumpThrough_cases d s with e | ⟨hd, hp, e⟩
      · rw [e] at h; cases h; exact .inl rfl
      · rw [e] at h; cases h; exact .inr ⟨_, .inl ⟨hf, hd, hp, rfl⟩, rfl⟩
    · rw [if_neg (by simp [State.flagsEqual, hf])] at h
      cases h; exact .inr ⟨_, .inr ⟨hf, rfl⟩, rfl⟩
  case jne d =>
    simp only [exec, execJne] at h
    by_cases hf : s.fl = flEqual
    · rw [if_pos (by simp [State.flagsEqual, hf])] at h
      cases h; exact .inr ⟨_, .inr ⟨hf, rfl⟩, rfl⟩
    · rw [if_neg (by simp [State.flagsEqual, hf])] at h
      rcases jumpThrough_cases d s with e | ⟨hd, hp, e⟩
      · rw [e] at h; cases h; exact .inl rfl
      · rw [e] at h; cases h; exact .inr ⟨_, .inl ⟨hf, hd, hp, rfl⟩, rfl⟩
  case add d r =>
    simp only [exec, execAdd] at h
    rcases complete_eq_next h with ⟨c, e, rfl⟩ | ⟨t, e, rfl⟩
    · obtain rfl := aluHandler_eq_error (by decide) e; exact .inl rfl
    · obtain ⟨hd, hr, hp, a, e1, e2⟩ := aluHandler_eq_ok e
      cases e1
      simp only [writeBack, writeReg_of_lt _ _ hd] at e2
      cases e2
      exact .inr ⟨_, ⟨hd, hr, hp, rfl⟩, rfl⟩
  case mul d r =>
    simp only [exec, execMul] at h
    rcases complete_eq_next h with ⟨c, e, rfl⟩ | ⟨t, e, rfl⟩
    · obtain rfl := aluHandler_eq_error (by decide) e; exact .inl rfl
    · obtain ⟨hd, hr, hp, a, e1, e2⟩ := aluHandler_eq_ok e
      cases e1
      simp only [writeBack, writeReg_of_lt _ _ hd] at e2
      cases e2
      exact .inr ⟨_, ⟨hd, hr, hp, rfl⟩, rfl⟩
  case xor d r =>
    simp only [exec, execXor] at h
    rcases complete_eq_next h with ⟨c, e, rfl⟩ | ⟨t, e, rfl⟩
    · obtain rfl := aluHandler_eq_error (by decide) e; exact .inl rfl
    · obtain ⟨hd, hr, hp, a, e1, e2⟩ := aluHandler_eq_ok e
      cases e1
      simp only [writeBack, writeReg_of_lt _ _ hd] at e2
      cases e2
      exact .inr ⟨_, ⟨hd, hr, hp, rfl⟩, rfl⟩
  case cmp d r =>
    simp only [exec, execCmp] at h
    rcases complete_eq_next h with ⟨c, e, rfl⟩ | ⟨t, e, rfl⟩
    · obtain rfl := aluHandler_eq_error (by decide) e; exact .inl rfl
    · obtain ⟨hd, hr, hp, a, e1, e2⟩ := aluHandler_eq_ok e
      cases e1
      cases e2
      exact .inr ⟨_, ⟨hd, hr, hp, rfl⟩, rfl⟩

end Sys2Proof.Machine
end

