-- ==== Sys2Proof/Laws/PerInstr.lean ====
section
/-! SUPPORT. Statements made per instruction, one lemma per constructor of Instr. -/

namespace Sys2Proof.Laws

/-- The instruction's length is what the first byte of its encoding says, bits 7:6 plus one (R70, R72). -/
def EncodedLength.Statement (i : Instr) : Prop :=
  (encode i).length = (operandCountBits i.handler.row.opcode).toNat + 1

/-- The length is settled by the handler's row and the number of operand bytes. -/
theorem encodedLength_of_handler {i : Instr} (h : HandlerId) (hi : i.handler = h)
    (hn : i.operands.length = (operandCountBits h.row.opcode).toNat) : EncodedLength.Statement i := by
  unfold EncodedLength.Statement encode
  rw [hi, List.length_cons, hn]

theorem EncodedLength.hlt : EncodedLength.Statement .hlt := encodedLength_of_handler .hlt rfl rfl
theorem EncodedLength.ret : EncodedLength.Statement .ret := encodedLength_of_handler .ret rfl rfl
theorem EncodedLength.push (d : Byte) : EncodedLength.Statement (.push d) := encodedLength_of_handler .push rfl rfl
theorem EncodedLength.pop (d : Byte) : EncodedLength.Statement (.pop d) := encodedLength_of_handler .pop rfl rfl
theorem EncodedLength.prn (d : Byte) : EncodedLength.Statement (.prn d) := encodedLength_of_handler .prn rfl rfl
theorem EncodedLength.call (d : Byte) : EncodedLength.Statement (.call d) := encodedLength_of_handler .call rfl rfl
theorem EncodedLength.jmp (d : Byte) : EncodedLength.Statement (.jmp d) := encodedLength_of_handler .jmp rfl rfl
theorem EncodedLength.jeq (d : Byte) : EncodedLength.Statement (.jeq d) := encodedLength_of_handler .jeq rfl rfl
theorem EncodedLength.jne (d : Byte) : EncodedLength.Statement (.jne d) := encodedLength_of_handler .jne rfl rfl
theorem EncodedLength.not (d : Byte) : EncodedLength.Statement (.not d) := encodedLength_of_handler .not rfl rfl
theorem EncodedLength.ldi (d imm : Byte) : EncodedLength.Statement (.ldi d imm) := encodedLength_of_handler .ldi rfl rfl
theorem EncodedLength.add (d s : Byte) : EncodedLength.Statement (.add d s) := encodedLength_of_handler .add rfl rfl
theorem EncodedLength.mul (d s : Byte) : EncodedLength.Statement (.mul d s) := encodedLength_of_handler .mul rfl rfl
theorem EncodedLength.xor (d s : Byte) : EncodedLength.Statement (.xor d s) := encodedLength_of_handler .xor rfl rfl
theorem EncodedLength.mod (d s : Byte) : EncodedLength.Statement (.mod d s) := encodedLength_of_handler .mod rfl rfl
theorem EncodedLength.cmp (d s : Byte) : EncodedLength.Statement (.cmp d s) := encodedLength_of_handler .cmp rfl rfl
theorem EncodedLength.and (d s : Byte) : EncodedLength.Statement (.and d s) := encodedLength_of_handler .and rfl rfl
theorem EncodedLength.or (d s : Byte) : EncodedLength.Statement (.or d s) := encodedLength_of_handler .or rfl rfl
theorem EncodedLength.shl (d s : Byte) : EncodedLength.Statement (.shl d s) := encodedLength_of_handler .shl rfl rfl
theorem EncodedLength.shr (d s : Byte) : EncodedLength.Statement (.shr d s) := encodedLength_of_handler .shr rfl rfl

end Sys2Proof.Laws
end

