-- ==== Sys2Proof/Tests/Slice0.lean ====
section
/-! SUPPORT. The model's own tests: the checks of WellFormed, words written out from the spec's encodings, the vectors of spec/95_test_vectors.md (their ids in the names), and a witness for the hypotheses of every statement. -/

namespace Sys2Proof.Tests

open Sys2Proof Sys2Proof.Machine

/-! ### WellFormed: an ill-formed term for each check, refused, beside a well-formed one -/

theorem test_wellFormed_refuses_index_8 :
    Instr.wellFormed (.ldi 8 0) = false ∧ Instr.wellFormed (.ldi 7 255) = true := by decide
theorem test_wellFormed_refuses_index_8_of_one_operand :
    [Instr.push 8, .pop 9, .prn 255, .call 8, .jmp 8, .jeq 8, .jne 8].all (fun i => !i.wellFormed) = true := by decide
theorem test_wellFormed_refuses_either_alu_index :
    [Instr.add 8 0, .add 0 8, .mul 8 0, .mul 0 8, .xor 8 0, .xor 0 8, .cmp 8 0, .cmp 0 8].all
      (fun i => !i.wellFormed) = true := by decide
theorem test_wellFormed_ignores_noop_operands : Instr.wellFormed (.and 8 255) = true := by decide
theorem test_imageFits_refuses_257 :
    imageFits (List.replicate 257 0) = false ∧ imageFits (List.replicate 256 0) = true := by
  simp only [imageFits, List.length_replicate]; decide

/-! ### Decoding words written out bit by bit from R78 and R82 -/

theorem test_decode_f0 :
    decode [0b00000001#8] = .ok (.hlt, []) ∧ decode [0b00010001#8, 7] = .ok (.ret, [7]) := by decide
theorem test_decode_load_output :
    decode [0b10000010#8, 0b00000011#8, 0b11111111#8] = .ok (.ldi 3 255, []) ∧
    decode [0b01000111#8, 0b00000010#8] = .ok (.prn 2, []) := by decide
theorem test_decode_alu :
    decode [0b10100000#8, 0b00000000#8, 0b00000001#8] = .ok (.add 0 1, []) ∧
    decode [0b10100010#8, 0b00000000#8, 0b00001001#8] = .ok (.mul 0 9, []) ∧
    decode [0b10100111#8, 0b00000000#8, 0b00000010#8] = .ok (.cmp 0 2, []) ∧
    decode [0b10100011#8, 0b00000100#8, 0b00000101#8] = .ok (.xor 4 5, []) := by decide
theorem test_decode_reserved :
    decode [0b10101000#8, 0, 1] = .ok (.and 0 1, []) ∧ decode [0b10101010#8, 3, 4] = .ok (.or 3 4, []) ∧
    decode [0b01101001#8, 9] = .ok (.not 9, []) ∧ decode [0b10101100#8, 0, 1] = .ok (.shl 0 1, []) ∧
    decode [0b10101101#8, 0, 1] = .ok (.shr 0 1, []) ∧ decode [0b10100100#8, 0, 1] = .ok (.mod 0 1, []) := by decide
theorem test_decode_stack :
    decode [0b01000101#8, 0b00000111#8] = .ok (.push 7, []) ∧
    decode [0b01000110#8, 0b00000001#8] = .ok (.pop 1, []) := by decide
theorem test_decode_control :
    decode [0b01010000#8, 0b00000001#8] = .ok (.call 1, []) ∧ decode [0b01010100#8, 3] = .ok (.jmp 3, []) ∧
    decode [0b01010101#8, 3] = .ok (.jeq 3, []) ∧ decode [0b01010110#8, 3] = .ok (.jne 3, []) := by decide
theorem test_decode_rejects_by_name :
    decode [0x00#8] = .error (.invalidOpcode 0x00) ∧ decode [0xA1#8, 0, 1] = .error (.invalidOpcode 0xA1) ∧
    decode [0xAB#8, 0, 1] = .error (.invalidOpcode 0xAB) ∧ decode [0x82#8, 0] = .error (.truncated 0x82) ∧
    decode [] = .error .noBytes := by decide
theorem test_decodeTableWord :
    decodeTableWord 24 0x080082 = some (.ldi 0 8) ∧ decodeTableWord 8 0xFF45 = some (.push 0) ∧
    decodeTableWord 8 0xC0 = none := by decide

/-! ### A small state: registers, pc, Flags and some bytes of memory -/

/-- R0, R1, R2, R3 and SP as given, the other registers 0; running; `code` at `pc`. -/
def st (pc : Pc) (code : List Byte) (r0 r1 r2 r3 sp : Byte) (fl : FlagBits) : State :=
  { regs := #v[r0, r1, r2, r3, 0, 0, 0, sp], fl := fl, pc := pc, running := true, haltCause := .none,
    mem := Memory.store [] pc.toNat code, output := [] }

/-- The state with one more memory byte. -/
def withByte (s : State) (a : Nat) (v : Byte) : State := { s with mem := s.mem.write a v }

/-- The next state of an outcome, if it has one. -/
def after (o : Host.Outcome State Fault Refusal) : Option State :=
  match o with
  | .next s => some s
  | .fault _ => none
  | .refused _ => none

/-- What the vectors look at: R0, R1 and SP, FL, pc, `running`, `halt_cause`, and the output. -/
structure View where
  regs : List Byte
  fl : FlagBits
  pc : Pc
  running : Bool
  cause : HaltCause
  output : List Byte
  deriving DecidableEq, Repr

/-- The view of a next state. -/
def view (o : Host.Outcome State Fault Refusal) : Option View :=
  (after o).map fun s => ⟨[s.reg 0, s.reg 1, s.reg 7], s.fl, s.pc, s.running, s.haltCause, s.output⟩

/-- A byte of memory after the step. -/
def byteAfter (o : Host.Outcome State Fault Refusal) (a : Nat) : Option Byte := (after o).map fun s => s.mem.read a

/-! ### Vectors of spec/95_test_vectors.md, sections 2.1 to 2.6 -/

theorem test_V_LDI_2 : view (step (st 0 [0x82, 0x07, 0x10] 0 0 0 0 0xF4 0)) =
    some ⟨[0, 0, 0x10], 0, 3, true, .none, []⟩ := by decide
theorem test_V_LDI_4 : view (step (st 0xFE [0x82, 0x00] 5 0 0 0 0xF4 0)) =
    some ⟨[5, 0, 0xF4], 0, 0xFE, false, .outOfBounds, []⟩ := by decide
theorem test_V_PRN_2 : view (step (st 0 [0x47, 0x07] 0 0 0 0 0xF4 0)) =
    some ⟨[0, 0, 0xF4], 0, 2, true, .none, [244]⟩ := by decide
theorem test_V_PRN_4 : view (step (st 0xFE [0x47, 0x00] 0xFE 0 0 0 0xF4 0)) =
    some ⟨[0xFE, 0, 0xF4], 0, 0x100, true, .none, [254]⟩ := by decide
theorem test_V_HLT_2 : view (step (st 0xFF [0x01] 0 0 0 0 0xF4 0)) =
    some ⟨[0, 0, 0xF4], 0, 0x100, false, .hlt, []⟩ := by decide
theorem test_V_ADD_1 : view (step (st 0 [0xA0, 0, 1] 0xC8 0x64 0 0 0xF4 2)) =
    some ⟨[0x2C, 0x64, 0xF4], 2, 3, true, .none, []⟩ := by decide
theorem test_V_ADD_4 : view (step (st 0 [0xA0, 7, 0] 0x10 0 0 0 0xF4 0)) =
    some ⟨[0x10, 0, 0x04], 0, 3, true, .none, []⟩ := by decide
theorem test_V_MUL_3 : view (step (st 0 [0xA2, 0, 1] 0xFF 0xFF 0 0 0xF4 0)) =
    some ⟨[0x01, 0xFF, 0xF4], 0, 3, true, .none, []⟩ := by decide
theorem test_V_MUL_6 : view (step (st 0 [0xA2, 0, 9] 3 0 0 0 0xF4 0)) =
    some ⟨[3, 0, 0xF4], 0, 0, false, .outOfBounds, []⟩ := by decide
theorem test_V_CMP_2 : view (step (st 0 [0xA7, 0, 1] 0x80 0x7F 0 0 0xF4 0)) =
    some ⟨[0x80, 0x7F, 0xF4], 2, 3, true, .none, []⟩ := by decide
theorem test_V_CMP_4 : view (step (st 0 [0xA7, 0, 0] 9 0 0 0 0xF4 4)) =
    some ⟨[9, 0, 0xF4], 1, 3, true, .none, []⟩ := by decide
theorem test_V_XOR_3 : view (step (st 0 [0xA3, 0, 1] 0x0F 0xF0 0 0 0xF4 0)) =
    some ⟨[0x01, 0xF0, 0xF4], 4, 3, true, .none, []⟩ := by decide
theorem test_V_XOR_6 : view (step (st 0 [0xA3, 0, 8] 1 0 0 0 0xF4 2)) =
    some ⟨[1, 0, 0xF4], 2, 0, false, .outOfBounds, []⟩ := by decide
theorem test_V_NOP_AND : view (step (st 0x10 [0xA8, 0, 1] 3 5 0 0 0xF4 0)) =
    some ⟨[3, 5, 0xF4], 0, 0x13, true, .none, []⟩ := by decide
theorem test_V_NOP_OR : view (step (st 0x20 [0xAA, 3, 4] 0 0 0 0 0xF4 1)) =
    some ⟨[0, 0, 0xF4], 1, 0x23, true, .none, []⟩ := by decide
theorem test_V_NOP_NOT_2 : view (step (st 5 [0x69, 9] 0x5A 0 0 0 0xF4 0)) =
    some ⟨[0x5A, 0, 0xF4], 0, 7, true, .none, []⟩ := by decide
theorem test_V_NOP_SHL : view (step (st 0 [0xAC, 0, 1] 1 0 0 0 0xF4 0)) =
    some ⟨[1, 0, 0xF4], 0, 3, true, .none, []⟩ := by decide
theorem test_V_NOP_SHR : view (step (st 0 [0xAD, 0, 1] 0x80 0 0 0 0xF4 0)) =
    some ⟨[0x80, 0, 0xF4], 0, 3, true, .none, []⟩ := by decide
theorem test_V_NOP_MOD : view (step (st 0 [0xA4, 0, 1] 7 0 0 0 0xF4 0)) =
    some ⟨[7, 0, 0xF4], 0, 3, true, .none, []⟩ := by decide
theorem test_V_NOP_TOP : view (step (st 0xFF [0x69] 0 0 0 0 0xF4 0)) =
    some ⟨[0, 0, 0xF4], 0, 0x101, true, .none, []⟩ := by decide
theorem test_V_PUSH_2 : view (step (st 0 [0x45, 7] 0 0 0 0 0xF4 0)) =
      some ⟨[0, 0, 0xF3], 0, 2, true, .none, []⟩ ∧
    byteAfter (step (st 0 [0x45, 7] 0 0 0 0 0xF4 0)) 0xF3 = some 0xF3 := by decide
theorem test_V_PUSH_3 : after (step (st 0 [0x45, 0] 5 0 0 0 0 0)) =
    some { st 0 [0x45, 0] 5 0 0 0 0 0 with running := false, haltCause := .outOfBounds } := by decide
theorem test_V_POP_1 : view (step (withByte (st 0 [0x46, 1] 0 0 0 0 0xF3 0) 0xF3 5)) =
    some ⟨[0, 5, 0xF4], 0, 2, true, .none, []⟩ := by decide
theorem test_V_POP_2_and_3 : view (step (withByte (st 0 [0x46, 7] 0 0 0 0 0xF3 0) 0xF3 0x20)) =
      some ⟨[0, 0, 0x21], 0, 2, true, .none, []⟩ ∧
    view (step (withByte (st 0 [0x46, 7] 0 0 0 0 0xF3 0) 0xF3 0xFF)) =
      some ⟨[0, 0, 0xF3], 0, 0, false, .outOfBounds, []⟩ := by decide
theorem test_V_CALL_2 : view (step (st 6 [0x50, 7] 0 0 0 0 0xF4 0)) =
      some ⟨[0, 0, 0xF3], 0, 0xF3, true, .none, []⟩ ∧
    byteAfter (step (st 6 [0x50, 7] 0 0 0 0 0xF4 0)) 0xF3 = some 0x08 := by decide
theorem test_V_CALL_3 : view (step (withByte (st 0xFE [0x50, 1] 0 0x40 0 0 0xF4 0) 0xF3 0x99)) =
      some ⟨[0, 0x40, 0xF3], 0, 0x40, true, .none, []⟩ ∧
    byteAfter (step (withByte (st 0xFE [0x50, 1] 0 0x40 0 0 0xF4 0) 0xF3 0x99)) 0xF3 = some 0 := by decide
theorem test_V_RET_1 : view (step (withByte (st 0x10 [0x11] 0 0 0 0 0xF3 0) 0xF3 8)) =
    some ⟨[0, 0, 0xF4], 0, 8, true, .none, []⟩ := by decide
theorem test_V_RET_2 : view (step (withByte (st 0x10 [0x11] 0 0 0 0 0xFF 0) 0xFF 8)) =
    some ⟨[0, 0, 0xFF], 0, 0x10, false, .outOfBounds, []⟩ := by decide
theorem test_V_JMP_1 : view (step (st 0 [0x54, 3] 0 0 0 0x0C 0xF4 0)) =
    some ⟨[0, 0, 0xF4], 0, 0x0C, true, .none, []⟩ := by decide
theorem test_V_JMP_2 : view (step (st 0 [0x54, 8] 0 0 0 0 0xF4 0)) =
    some ⟨[0, 0, 0xF4], 0, 0, false, .outOfBounds, []⟩ := by decide
theorem test_V_JEQ_1 : view (step (st 0x10 [0x55, 3] 0 0 0 0x20 0xF4 1)) =
    some ⟨[0, 0, 0xF4], 1, 0x20, true, .none, []⟩ := by decide
theorem test_V_JEQ_4 : view (step (st 0x10 [0x55, 9] 0 0 0 0 0xF4 2)) =
    some ⟨[0, 0, 0xF4], 2, 0x12, true, .none, []⟩ := by decide
theorem test_V_JNE_2 : view (step (st 0x14 [0x56, 3] 0 0 0 0x0C 0xF4 0)) =
    some ⟨[0, 0, 0xF4], 0, 0x0C, true, .none, []⟩ := by decide
theorem test_V_JNE_4 : view (step (st 0xFF [0x56] 0 0 0 0 0xF4 1)) =
    some ⟨[0, 0, 0xF4], 1, 0x101, true, .none, []⟩ := by decide
theorem test_V_INV_1 : view (step (st 0x20 [0x00] 1 0 0 0 0xF4 2)) =
    some ⟨[1, 0, 0xF4], 2, 0, false, .invalidInstruction, []⟩ := by decide
theorem test_V_INV_3 : view (step (st 0xFF [0xFF] 0 0 0 0 0xF4 0)) =
    some ⟨[0, 0, 0xF4], 0, 0, false, .invalidInstruction, []⟩ := by decide
theorem test_V_FETCH_1 : view (step (st 0x100 [] 0 0 0 0 0xF4 0)) =
    some ⟨[0, 0, 0xF4], 0, 0x100, false, .outOfBounds, []⟩ := by decide

/-! ### The host's two questions, the loader, reset -/

theorem test_withFetchWord_runs_the_word :
    view (step (State.reset.withFetchWord 24 0x080082)) = some ⟨[8, 0, 0xF4], 0, 3, true, .none, []⟩ := by decide
theorem test_withFetchWord_is_canonical : (State.reset.withFetchWord 24 0x080082).mem.wf := by decide
theorem test_empty_memory_is_invalid :
    view (step State.reset) = some ⟨[0, 0, 0xF4], 0, 0, false, .invalidInstruction, []⟩ := by decide
/-- R263, R264: a comment and a malformed line take no address. -/
theorem test_imageOfLines :
    imageOfLines [.skipped, .literal 0x82, .malformed, .literal 256, .literal 0, .literal 8] = [0x82, 0, 8] := by decide
/-- Program P1 of section 3 is loaded, and its first instruction runs. -/
theorem test_loaded_P1_first_step :
    view (match loadImage [0x82, 0, 8, 0x47, 0, 1] State.reset with
      | .next s => step s
      | .fault r => .fault r
      | .refused r => .refused r) = some ⟨[8, 0, 0xF4], 0, 3, true, .none, []⟩ := by decide
theorem test_halt_cause_codes :
    [HaltCause.none, .hlt, .invalidInstruction, .outOfBounds, .unsupportedOperation, .aborted].map HaltCause.code =
      [0, 1, 2, 3, 4, 5] := by decide

/-! ### The pins: a single step of LDI takes a request edge and four cycles (R237, R270) -/

/-- No input active. -/
def quiet : Pins := ⟨false, false, false, false, false, 0, 0, 0⟩
/-- A `step` pulse. -/
def pulse : Pins := { quiet with step := true }
/-- An `abort` pulse. -/
def abortPulse : Pins := { quiet with abort := true }
/-- The clocked block between steps. -/
def idle (s : State) : Clocked := ⟨s, .idle, false, none, 0⟩
/-- The launch values of the tests. -/
def launch0 : Launch := Config.defaultLaunch

/-- The core, `busy` and the output register after some edges. -/
def clocked (ps : List Pins) (c : Clocked) : Option (State × Bool × Option Byte) :=
  match clockEdges launch0 ps c with
  | .next d => some (d.core, d.busy, d.outPort)
  | .fault _ => none
  | .refused _ => none

/-- R0, pc, running, halt_cause, `busy` and the output register after some edges. -/
structure ClockedView where
  r0 : Byte
  pc : Pc
  running : Bool
  cause : HaltCause
  busy : Bool
  out : Option Byte
  deriving DecidableEq, Repr

/-- The view after some edges. -/
def clockedView (ps : List Pins) (c : Clocked) : Option ClockedView :=
  (clocked ps c).map fun x => ⟨x.1.reg 0, x.1.pc, x.1.running, x.1.haltCause, x.2.1, x.2.2⟩

theorem test_ldi_busy_for_four_cycles :
    clockedView [pulse, quiet, quiet, quiet] (idle (st 0 [0x82, 0, 8] 0 0 0 0 0xF4 0)) =
      some ⟨0, 0, true, .none, true, none⟩ ∧
    clockedView [pulse, quiet, quiet, quiet, quiet] (idle (st 0 [0x82, 0, 8] 0 0 0 0 0xF4 0)) =
      some ⟨8, 3, true, .none, false, none⟩ := by decide
theorem test_prn_three_cycles_and_out_valid :
    clockedView [pulse, quiet, quiet, quiet] (idle (st 0 [0x47, 0] 8 0 0 0 0xF4 0)) =
      some ⟨8, 2, true, .none, false, some 8⟩ := by decide
/-- R228: an abort between steps wins over the request at the same edge (log 16). -/
theorem test_abort_between_steps :
    clockedView [{ pulse with abort := true }] (idle (st 7 [0x82, 0, 8] 0 0 0 0 0xF4 0)) =
      some ⟨0, 7, false, .aborted, false, none⟩ := by decide
theorem test_abort_waits_for_the_boundary :
    clockedView [pulse, abortPulse, quiet] (idle (st 0 [0xA8, 0, 1] 0 0 0 0 0xF4 0)) =
      some ⟨0, 3, false, .aborted, false, none⟩ := by decide

/-! ### Witnesses: concrete inputs that meet the hypotheses of each statement, each clause at a boundary value -/

theorem witness_RomMetadataAreTheOpcodeBits : dispatchRom 0xAD#8 = some .shr := by decide
theorem witness_DecodedBytesAreTheEncoding : decode [0x69#8, 0xFF, 0x01] = .ok (.not 0xFF, [0x01]) := by decide
theorem witness_OtherOpcodesAreInvalid :
    (0xC0#8) ∉ [0x01#8, 0x11#8, 0x45#8, 0x46#8, 0x47#8, 0x50#8, 0x54#8, 0x55#8, 0x56#8, 0x69#8,
      0x82#8, 0xA0#8, 0xA2#8, 0xA3#8, 0xA4#8, 0xA7#8, 0xA8#8, 0xAA#8, 0xAC#8, 0xAD#8] := by decide

/-- LDI, ADD, MUL, CMP, XOR: the last pc and index that run, the first that fault. -/
theorem witness_three_byte_forms :
    ((7#8).toNat < 8 ∧ (st 253 [] 0 0 0 0 0 0).pc.toNat + 2 < 256) ∧
    256 ≤ (st 254 [] 0 0 0 0 0 0).pc.toNat + 2 ∧ 8 ≤ (8#8).toNat := by decide
/-- PRN, JMP: the last pc and index that run, the first that fault. -/
theorem witness_two_byte_forms :
    ((7#8).toNat < 8 ∧ (st 254 [] 0 0 0 0 0 0).pc.toNat + 1 < 256) ∧
    256 ≤ (st 255 [] 0 0 0 0 0 0).pc.toNat + 1 ∧ 8 ≤ (8#8).toNat := by decide
/-- PUSH, CALL: with d = 7 and with another register, at SP = 1; the three fault clauses. -/
theorem witness_PushStoresBelowTheStackPointer :
    ((7#8).toNat < 8 ∧ (6#8).toNat < 8 ∧ (6#8) ≠ 7 ∧ (st 254 [] 0 0 0 0 1 0).pc.toNat + 1 < 256 ∧
      0 < (st 254 [] 0 0 0 0 1 0).regs[7].toNat) ∧
    256 ≤ (st 255 [] 0 0 0 0 1 0).pc.toNat + 1 ∧ (st 0 [] 0 0 0 0 0 0).regs[7].toNat = 0 ∧ 8 ≤ (8#8).toNat := by decide
/-- POP: another register at SP = 254; R7 at SP = 255 with a byte 254 there; the four fault clauses. -/
theorem witness_PopLoadsFromTheStackPointer :
    ((6#8).toNat < 8 ∧ (6#8) ≠ 7 ∧ (st 254 [] 0 0 0 0 254 0).pc.toNat + 1 < 256 ∧
      (st 254 [] 0 0 0 0 254 0).regs[7].toNat < 255) ∧
    ((withByte (st 0 [] 0 0 0 0 255 0) 255 254).mem.read
      (withByte (st 0 [] 0 0 0 0 255 0) 255 254).regs[7].toNat).toNat < 255 ∧
    256 ≤ (st 255 [] 0 0 0 0 0 0).pc.toNat + 1 ∧ 8 ≤ (8#8).toNat ∧
    ((6#8) ≠ 7 ∧ (st 0 [] 0 0 0 0 255 0).regs[7].toNat = 255) ∧
    ((withByte (st 0 [] 0 0 0 0 9 0) 9 255).mem.read
      (withByte (st 0 [] 0 0 0 0 9 0) 9 255).regs[7].toNat).toNat = 255 := by decide
theorem witness_RetPopsThePc :
    (st 0 [] 0 0 0 0 254 0).regs[7].toNat < 255 ∧ (st 0 [] 0 0 0 0 255 0).regs[7].toNat = 255 := by decide
/-- JEQ and JNE: taken at the last readable pc, not taken, taken and faulting (by pc, by index), for each Flags. -/
theorem witness_conditional_branches :
    ((7#8).toNat < 8 ∧ (st 254 [] 0 0 0 0 0 1).fl = 1#3 ∧ (st 254 [] 0 0 0 0 0 1).pc.toNat + 1 < 256) ∧
    ((st 254 [] 0 0 0 0 0 0).fl ≠ 1#3 ∧ (st 254 [] 0 0 0 0 0 0).pc.toNat + 1 < 256) ∧
    ((st 255 [] 0 0 0 0 0 1).fl = 1#3 ∧ 256 ≤ (st 255 [] 0 0 0 0 0 1).pc.toNat + 1) ∧
    ((st 255 [] 0 0 0 0 0 4).fl ≠ 1#3 ∧ 256 ≤ (st 255 [] 0 0 0 0 0 4).pc.toNat + 1) ∧ 8 ≤ (8#8).toNat := by decide

theorem witness_NoInstructionIsUnsupported :
    ∃ t, exec .hlt { st 0 [] 0 0 0 0 0 0 with haltCause := .unsupportedOperation } = .next t ∧
      exec (.and 0 0) { st 0 [] 0 0 0 0 0 0 with haltCause := .unsupportedOperation } =
        .next { st 3 [] 0 0 0 0 0 0 with haltCause := .unsupportedOperation } := ⟨_, rfl, by rfl⟩
theorem witness_StackPointerArithmeticNeverWraps :
    (st 0 [] 0 0 0 0 0 0).regs[7].toNat = 0 ∧ 0 < (st 0 [] 0 0 0 0 1 0).regs[7].toNat ∧
    (st 0 [] 0 0 0 0 255 0).regs[7].toNat = 255 ∧ (st 0 [] 0 0 0 0 254 0).regs[7].toNat < 255 := by decide
theorem witness_MemoryReadsTheLastWrite : 256 ≤ (256 : Nat) ∧ (255 : Nat) < 256 ∧ (254 : Nat) ≠ 255 := by decide
theorem witness_CanonicalMemoriesAreEqualWhenTheyReadAlike :
    Memory.wf [(0, 1), (255, 2)] ∧ Memory.wf (Memory.write [(0, 1)] 255 2) ∧
      ∀ a < 256, Memory.read [(0, 1), (255, 2)] a = Memory.read (Memory.write [(0, 1)] 255 2) a := by
  refine ⟨by decide, by decide, fun a _ => ?_⟩
  have e : Memory.write [(0, 1)] 255 2 = [(0, 1), (255, 2)] := by decide
  rw [e]

/-- The frames: PUSH R0 completes and R1 is none of its destinations. -/
theorem witness_OnlyDestinationRegistersChange :
    ∃ t, exec (.push 0) (st 0 [] 5 0 0 0 0xF4 0) = .next t ∧ (1 : Fin 8).val ∉ [7] := ⟨_, rfl, by decide⟩
/-- The frames of Flags, Flags as input, status as input, output and memory: ADD completes, also with other inputs. -/
theorem witness_frames_of_add :
    (∃ t, exec (.add 0 1) (st 0 [] 5 6 0 0 0xF4 0) = .next t) ∧
    (∃ u, exec (.add 0 1) { st 0 [] 5 6 0 0 0xF4 0 with fl := 4 } = .next u) ∧
    (∃ u, exec (.add 0 1) { st 0 [] 5 6 0 0 0xF4 0 with running := false, haltCause := .aborted, output := [1] } =
      .next u) ∧
    (∀ d r, Instr.add 0 1 ≠ .cmp d r ∧ Instr.add 0 1 ≠ .xor d r) ∧
    (∀ d, Instr.add 0 1 ≠ .jeq d ∧ Instr.add 0 1 ≠ .jne d) ∧
    (∀ d, Instr.add 0 1 ≠ .push d ∧ Instr.add 0 1 ≠ .call d) :=
  ⟨⟨_, rfl⟩, ⟨_, rfl⟩, ⟨_, rfl⟩, by simp, by simp, by simp⟩
/-- PUSH and CALL at SP = 1 (the decrement succeeds, address 0) and at SP = 0 (it faults). -/
theorem witness_PushAndCallWriteOneByte :
    (∃ t u, exec (.push 0) (st 0 [] 5 0 0 0 1 0) = .next t ∧ spDec (st 0 [] 5 0 0 0 1 0) = .ok u ∧ 1 ≠ u.sp.toNat) ∧
    (∃ t, exec (.call 0) (st 0 [] 5 0 0 0 0 0) = .next t ∧ spDec (st 0 [] 5 0 0 0 0 0) = .error .outOfBounds) :=
  ⟨⟨_, _, rfl, rfl, by decide⟩, ⟨_, rfl, by decide⟩⟩
theorem witness_OnlyPrnEmits_and_AFaultCommitsNothing :
    (∃ t, exec (.prn 7) (st 254 [] 0 0 0 0 9 0) = .next t) ∧ ∃ t, exec (.prn 8) (st 0 [] 0 0 0 0 9 0) = .next t :=
  ⟨⟨_, rfl⟩, ⟨_, rfl⟩⟩
theorem witness_TheAdvanceNeverWraps :
    (Instr.not 0).handler.row.controlsPc = false ∧ (st 255 [] 0 0 0 0 0 0).pc.toNat < 256 ∧
      ∃ t, exec (.not 0) (st 255 [] 0 0 0 0 0 0) = .next t := ⟨by decide, by decide, _, rfl⟩
theorem witness_TransfersGoToByteAddresses :
    (Instr.jne 0).handler.row.controlsPc = true ∧ ∃ t, exec (.jne 0) (st 255 [] 0 0 0 0 0 1) = .next t :=
  ⟨by decide, _, rfl⟩
theorem witness_OrdinaryInstructionsDoNotFault :
    (Instr.pop 7).wellFormed = true ∧
    (withByte (st 254 [] 0 0 0 0 254 0) 254 254).pc.toNat + (encode (.pop 7)).length ≤ 256 ∧
    0 < (withByte (st 254 [] 0 0 0 0 254 0) 254 254).sp.toNat ∧
    (withByte (st 254 [] 0 0 0 0 254 0) 254 254).sp.toNat < 255 ∧
    ((withByte (st 254 [] 0 0 0 0 254 0) 254 254).mem.read
      (withByte (st 254 [] 0 0 0 0 254 0) 254 254).sp.toNat).toNat < 255 ∧
    (withByte (st 254 [] 0 0 0 0 254 0) 254 254).running = true ∧
    (withByte (st 254 [] 0 0 0 0 254 0) 254 254).haltCause = .none := by decide

/-- A decodable window and an encoding in memory: HLT at 255, the last address. -/
theorem witness_AStepRunsTheDecodedInstruction :
    (st 255 [1] 0 0 0 0 0 0).running = true ∧ (st 255 [1] 0 0 0 0 0 0).pc.toNat < 256 ∧
    ∃ rest, decode [(st 255 [1] 0 0 0 0 0 0).mem.read (st 255 [1] 0 0 0 0 0 0).pc.toNat,
      windowByte (st 255 [1] 0 0 0 0 0 0) ((st 255 [1] 0 0 0 0 0 0).pc.toNat + 1),
      windowByte (st 255 [1] 0 0 0 0 0 0) ((st 255 [1] 0 0 0 0 0 0).pc.toNat + 2)] = .ok (.hlt, rest) :=
  ⟨rfl, by decide, _, rfl⟩
theorem witness_AStepRunsTheEncodedInstruction :
    (st 254 [0x47, 3] 0 0 0 0 0 0).running = true ∧
    ∀ k b, (encode (.prn 3))[k]? = some b → (st 254 [0x47, 3] 0 0 0 0 0 0).pc.toNat + k < 256 ∧
      (st 254 [0x47, 3] 0 0 0 0 0 0).mem.read ((st 254 [0x47, 3] 0 0 0 0 0 0).pc.toNat + k) = b := by
  refine ⟨rfl, fun k b h => ?_⟩
  match k with
  | 0 => cases h; decide
  | 1 => cases h; decide
  | n + 2 => simp [encode, Instr.operands] at h
theorem witness_AFetchPastMemoryFaults :
    (st 256 [] 0 0 0 0 0 0).running = true ∧ 256 ≤ (st 256 [] 0 0 0 0 0 0).pc.toNat := by decide
theorem witness_AnInvalidOpcodeHaltsAtZero :
    (st 255 [0xFF] 0 0 0 0 0 0).running = true ∧ (st 255 [0xFF] 0 0 0 0 0 0).pc.toNat < 256 ∧
    (st 255 [0xFF] 0 0 0 0 0 0).mem.read (st 255 [0xFF] 0 0 0 0 0 0).pc.toNat ∉
      [0x01#8, 0x11#8, 0x45#8, 0x46#8, 0x47#8, 0x50#8, 0x54#8, 0x55#8, 0x56#8, 0x69#8,
        0x82#8, 0xA0#8, 0xA2#8, 0xA3#8, 0xA4#8, 0xA7#8, 0xA8#8, 0xAA#8, 0xAC#8, 0xAD#8] := by decide
theorem witness_UnreadOperandsCannotFault :
    (st 255 [0xAD] 0 0 0 0 0 0).pc.toNat < 256 ∧
    (st 255 [0xAD] 0 0 0 0 0 0).mem.read 255 ∈ [0xA8#8, 0xAA#8, 0xAC#8, 0xAD#8, 0xA4#8] ∧
    (st 255 [0x69] 0 0 0 0 0 0).mem.read 255 = 0x69#8 ∧
    ((st 255 [0x55] 0 0 0 0 0 4).mem.read 255 = 0x55#8 ∧ (st 255 [0x55] 0 0 0 0 0 4).fl ≠ 1#3) ∧
    ((st 255 [0x56] 0 0 0 0 0 1).mem.read 255 = 0x56#8 ∧ (st 255 [0x56] 0 0 0 0 0 1).fl = 1#3) := by decide
theorem witness_HaltedIsTerminal : (State.halt State.reset .hlt).running = false := by decide
theorem witness_ResetMeetsTheInvariant : Memory.wf [(255, 1)] := by decide
/-- A running state that meets the invariant, with a step that goes on. -/
theorem witness_EveryStepKeepsTheInvariant :
    (st 0 [0x82, 0, 8] 0 0 0 0 0xF4 0).Inv ∧ ∃ t, step (st 0 [0x82, 0, 8] 0 0 0 0 0xF4 0) = .next t :=
  ⟨⟨by decide, by decide, by decide, by decide, by decide, by decide⟩, _, rfl⟩
theorem witness_HostActionsKeepTheInvariant :
    (st 0 [0x82, 0, 8] 0 0 0 0 0xF4 0).Inv ∧ ∃ t, loadImage [1] (st 0 [0x82, 0, 8] 0 0 0 0 0xF4 0) = .next t :=
  ⟨⟨by decide, by decide, by decide, by decide, by decide, by decide⟩, _, rfl⟩

theorem witness_PushesThenPopsRestoreTheRegisters :
    (∀ d ∈ [0#8, 6#8], d.toNat < 7) ∧ [0#8, 6#8].length ≤ (st 248 [] 0 0 0 0 2 0).sp.toNat ∧
      (st 248 [] 0 0 0 0 2 0).pc.toNat + 4 * [0#8, 6#8].length ≤ 256 := by decide
theorem witness_CallThenRetComesBack :
    (6#8).toNat < 7 ∧ (st 253 [] 0 0 0 0 1 0).pc.toNat ≤ 253 ∧ 0 < (st 253 [] 0 0 0 0 1 0).sp.toNat ∧
      ∃ t, exec (.call 6) (st 253 [] 0 0 0 0 1 0) = .next t ∧ t.sp = t.sp := ⟨by decide, by decide, by decide, _, rfl, rfl⟩
theorem witness_CompareThenBranch :
    (7#8).toNat < 8 ∧ (st 251 [] 3 3 4 9 0 0).pc.toNat + 4 < 256 ∧
      (st 251 [] 3 3 4 9 0 0).regs[(0#8).toNat] = (st 251 [] 3 3 4 9 0 0).regs[(1#8).toNat] ∧
      (st 251 [] 3 3 4 9 0 0).regs[(0#8).toNat] ≠ (st 251 [] 3 3 4 9 0 0).regs[(2#8).toNat] := by decide
theorem witness_AnAbortStopsARunningMachine :
    State.reset.running = true ∧ (State.halt State.reset .hlt).running = false := by decide
theorem witness_TheLoaderWritesTheImage :
    (List.replicate 256 (1#8)).length ≤ 256 ∧ 256 < (List.replicate 257 (1#8)).length := by
  simp only [List.length_replicate]; decide
theorem witness_OnlyWellFormedLinesTakeAnAddress : (255 : Nat) < 256 ∧ (255 : Nat) ≤ 255 := by decide

theorem witness_ResetAbandonsAStepInProgress : ({ quiet with rst := true } : Pins).rst = true := rfl
theorem witness_HostWritesAreIgnoredWhileBusy :
    quiet.rst = false ∧ ({ idle State.reset with phase := .fetch } : Clocked).busy = true := by decide
/-- A request alone, and an abort together with a request, at an edge between steps. -/
theorem witness_ARequestStartsAStepOnlyWhileRunning :
    pulse.rst = false ∧ ({ pulse with abort := true } : Pins).rst = false ∧ (idle State.reset).phase = .idle := by decide
/-- Between steps, and with an empty and a loaded output register. -/
theorem witness_TheInspectionPinsShowTheState :
    (idle State.reset).busy = false ∧ (idle State.reset).outPort = none ∧
      ({ idle State.reset with outPort := some 255 } : Clocked).outPort = some 255 := by decide
/-- LDI at 0 takes four edges from FETCH, and one of them may carry an abort. -/
theorem witness_TheMicroSequenceRefinesTheStep :
    ({ idle (st 0 [0x82, 0, 8] 0 0 0 0 0xF4 0) with phase := .fetch } : Clocked).phase = .fetch ∧
    (st 0 [0x82, 0, 8] 0 0 0 0 0xF4 0).running = true ∧
    (∃ t, step (st 0 [0x82, 0, 8] 0 0 0 0 0xF4 0) = .next t) ∧
    [quiet, abortPulse, quiet, quiet].length = stepCycles (st 0 [0x82, 0, 8] 0 0 0 0 0xF4 0) ∧
    ∀ p ∈ [quiet, abortPulse, quiet, quiet], p.rst = false :=
  ⟨rfl, rfl, ⟨_, rfl⟩, by decide, by decide⟩
/-- Each clause at the last pc below 256 and at the first above. -/
theorem witness_CyclesPerInstruction :
    256 ≤ (st 256 [] 0 0 0 0 0 0).pc.toNat ∧ (st 255 [0x00] 0 0 0 0 0 0).pc.toNat < 256 ∧
    dispatchRom ((st 255 [0x00] 0 0 0 0 0 0).mem.read 255) = none ∧
    (st 255 [0x01] 0 0 0 0 0 0).mem.read 255 ∈ [0x01#8, 0x11#8, 0x69#8, 0xA4#8, 0xA8#8, 0xAA#8, 0xAC#8, 0xAD#8] ∧
    (st 255 [0x55] 0 0 0 0 0 1).mem.read 255 = 0x55#8 ∧ (st 255 [0x56] 0 0 0 0 0 0).mem.read 255 = 0x56#8 ∧
    (st 255 [0x54] 0 0 0 0 0 0).mem.read 255 ∈ [0x45#8, 0x46#8, 0x47#8, 0x50#8, 0x54#8] ∧
    (st 254 [0xA7] 0 0 0 0 0 0).mem.read 254 ∈ [0x82#8, 0xA0#8, 0xA2#8, 0xA3#8, 0xA7#8] := by decide

end Sys2Proof.Tests
end

section
/-! PROOFS. 00_scope: a faulting instruction commits nothing (R9, R221, R226). -/

namespace Sys2Proof.Machine

/-- Only HLT's handler ends the run: every other effect writes neither `running` nor `halt_cause` (R30, R31). -/
theorem Effect.running_haltCause {i : Instr} {s t : State} (hi : i ≠ .hlt) (e : Effect s t i) :
    t.running = s.running ∧ t.haltCause = s.haltCause := by
  cases i
  case hlt => exact absurd rfl hi
  case not | and | or | shl | shr | mod => obtain rfl := e; exact ⟨rfl, rfl⟩
  case ret => obtain ⟨_, rfl⟩ := e; exact ⟨rfl, rfl⟩
  case prn | jmp | ldi => obtain ⟨_, _, rfl⟩ := e; exact ⟨rfl, rfl⟩
  case push | pop | call | add | mul | xor | cmp => obtain ⟨_, _, _, rfl⟩ := e; exact ⟨rfl, rfl⟩
  case jeq | jne => obtain ⟨_, _, _, rfl⟩ | ⟨_, rfl⟩ := e <;> exact ⟨rfl, rfl⟩

/-- The end of a step that did not fault moves pc at most (R101 step 4, R105). -/
theorem State.running_haltCause_ite_advance (t : State) (b : Bool) (n : Nat) :
    (if b then t else t.advance n).running = t.running ∧ (if b then t else t.advance n).haltCause = t.haltCause := by
  cases b <;> exact ⟨rfl, rfl⟩

/-- Settles O36, from the inversion of `exec`: a fault is taken from the state the instruction began in, and of the
effects only HLT's ends the run. -/
theorem aFaultCommitsNothing : Obligations.AFaultCommitsNothing := by
  intro i s u h
  obtain hfault | ⟨t, e, rfl⟩ := exec_cases h
  · exact .inr (.inr hfault)
  · obtain ⟨hr, hc⟩ := t.running_haltCause_ite_advance i.handler.row.controlsPc (i.handler.row.operandCount.toNat + 1)
    rw [hr, hc]
    by_cases hi : i = .hlt
    · subst hi
      obtain rfl : t = s.halt .hlt := e
      exact .inr (.inl ⟨rfl, rfl, rfl⟩)
    · exact .inl (e.running_haltCause hi)

end Sys2Proof.Machine
end

section
/-! PROOFS. 10_state, the frames: what each instruction's effect leaves of the registers, Flags, pc and memory, and what
it may read (R25, R27, R29, R33, R54, R105, R195). -/

namespace Sys2Proof.Machine

/-! ### The advance that ends an instruction -/

/-- The advance writes nothing but pc, whether it is made or not (R101 step 4). -/
theorem State.frame_ite_advance (t : State) (b : Bool) (n : Nat) :
    (if b then t else t.advance n).regs = t.regs ∧ (if b then t else t.advance n).fl = t.fl ∧
      (if b then t else t.advance n).mem = t.mem := by
  cases b <;> exact ⟨rfl, rfl, rfl⟩

/-- A 9-bit pc below 256 has room for any small advance (R29, D5). -/
theorem State.toNat_advance_pc {s : State} (hp : s.pc.toNat < 256) {n : Nat} (hn : n ≤ 256) :
    (s.advance n).pc.toNat = s.pc.toNat + n := by
  simp only [State.advance_pc, BitVec.toNat_add, BitVec.toNat_ofNat]
  omega

theorem length_encode (i : Instr) : (encode i).length = i.handler.row.operandCount.toNat + 1 := by
  cases i <;> rfl

theorem length_encode_le (i : Instr) : (encode i).length ≤ 3 := by
  cases i <;> simp [encode, Instr.operands]

/-! ### What an effect leaves unchanged -/

/-- Flags keep their value, or CMP or XOR gave them one of the compare function's (R27, R143). -/
theorem Effect.fl_cases {i : Instr} {s t : State} (e : Effect s t i) :
    t.fl = s.fl ∨ (∃ d r, i = .cmp d r ∨ i = .xor d r) ∧ legalFlags t.fl = true := by
  cases i
  case cmp d r => obtain ⟨_, _, _, rfl⟩ := e; exact .inr ⟨⟨d, r, .inl rfl⟩, legalFlags_aluCompare _ _⟩
  case xor d r => obtain ⟨_, _, _, rfl⟩ := e; exact .inr ⟨⟨d, r, .inr rfl⟩, legalFlags_aluCompare _ _⟩
  case hlt | not | and | or | shl | shr | mod => obtain rfl := e; exact .inl rfl
  case ret => obtain ⟨_, rfl⟩ := e; exact .inl rfl
  case prn | jmp | ldi => obtain ⟨_, _, rfl⟩ := e; exact .inl rfl
  case push | pop | call | add | mul => obtain ⟨_, _, _, rfl⟩ := e; exact .inl rfl
  case jeq | jne => obtain ⟨_, _, _, rfl⟩ | ⟨_, rfl⟩ := e <;> exact .inl rfl

/-- The stores of PUSH and CALL go to a byte address, so memory stays in canonical form (R50, R54). -/
theorem Effect.mem_wf {i : Instr} {s t : State} (e : Effect s t i) (hm : s.mem.wf) : t.mem.wf := by
  have hsp : s.sp.toNat - 1 < 256 := by have := s.sp.isLt; omega
  cases i
  case push | call => obtain ⟨_, _, _, rfl⟩ := e; exact Memory.wf_write hm hsp _
  case hlt | not | and | or | shl | shr | mod => obtain rfl := e; exact hm
  case ret => obtain ⟨_, rfl⟩ := e; exact hm
  case prn | jmp | ldi => obtain ⟨_, _, rfl⟩ := e; exact hm
  case pop | add | mul | xor | cmp => obtain ⟨_, _, _, rfl⟩ := e; exact hm
  case jeq | jne => obtain ⟨_, _, _, rfl⟩ | ⟨_, rfl⟩ := e <;> exact hm

/-- Where the ROM leaves pc to the control unit, the handler leaves it alone (R105). -/
theorem Effect.pc_eq_of_not_controlsPc {i : Instr} {s t : State} (e : Effect s t i)
    (hc : i.handler.row.controlsPc = false) : t.pc = s.pc := by
  cases i
  case ret | call | jmp | jeq | jne => cases hc
  case hlt | not | and | or | shl | shr | mod => obtain rfl := e; rfl
  case prn | ldi => obtain ⟨_, _, rfl⟩ := e; rfl
  case push | pop | add | mul | xor | cmp => obtain ⟨_, _, _, rfl⟩ := e; rfl

theorem State.toNat_jump_pc (s : State) (v : Byte) : (s.jump v).pc.toNat < 256 := by
  have := v.isLt
  simp only [State.jump_pc, BitVec.toNat_setWidth]
  omega

/-- Where the handler sets pc, it jumps to a byte address, or is a conditional branch not taken (R195). -/
theorem Effect.pc_of_controlsPc {i : Instr} {s t : State} (e : Effect s t i)
    (hc : i.handler.row.controlsPc = true) :
    t.pc.toNat < 256 ∨ (∃ d, i = .jeq d ∨ i = .jne d) ∧ t.pc = s.pc + 2 := by
  cases i
  case hlt | not | and | or | shl | shr | mod | prn | ldi | push | pop | add | mul | xor | cmp => cases hc
  case ret => obtain ⟨_, rfl⟩ := e; exact .inl (State.toNat_jump_pc _ _)
  case call => obtain ⟨_, _, _, rfl⟩ := e; exact .inl (State.toNat_jump_pc _ _)
  case jmp => obtain ⟨_, _, rfl⟩ := e; exact .inl (State.toNat_jump_pc _ _)
  case jeq d =>
    obtain ⟨_, _, _, rfl⟩ | ⟨_, rfl⟩ := e
    · exact .inl (State.toNat_jump_pc _ _)
    · exact .inr ⟨⟨d, .inl rfl⟩, rfl⟩
  case jne d =>
    obtain ⟨_, _, _, rfl⟩ | ⟨_, rfl⟩ := e
    · exact .inl (State.toNat_jump_pc _ _)
    · exact .inr ⟨⟨d, .inr rfl⟩, rfl⟩

/-- Settles O37: the handler leaves pc, and from a byte address the advance by the encoding's length fits in 9 bits. -/
theorem theAdvanceNeverWraps : Obligations.TheAdvanceNeverWraps := by
  intro i s u hc hp h
  obtain hfault | ⟨t, e, rfl⟩ := exec_cases h
  · exact .inr hfault
  · left
    have hpc : t.pc = s.pc := e.pc_eq_of_not_controlsPc hc
    rw [hc, if_neg Bool.false_ne_true, ← length_encode, ← hpc]
    exact State.toNat_advance_pc (hpc ▸ hp) (by have := length_encode_le i; omega)

/-- Settles O38: an instruction with controls_pc set ends with its effect, and the effect's pc is known. -/
theorem transfersGoToByteAddresses : Obligations.TransfersGoToByteAddresses := by
  intro i s u hc h
  obtain hfault | ⟨t, e, rfl⟩ := exec_cases h
  · exact .inr (.inr hfault)
  · rw [if_pos hc]
    exact (e.pc_of_controlsPc hc).imp_right .inl

/-- Settles O30: a fault leaves Flags, and so does every effect but those of CMP and XOR. -/
theorem onlyCmpAndXorWriteFlags : Obligations.OnlyCmpAndXorWriteFlags := by
  intro i s u h hi
  obtain rfl | ⟨t, e, rfl⟩ := exec_cases h
  · rfl
  · obtain ⟨-, hfl, -⟩ := t.frame_ite_advance i.handler.row.controlsPc (i.handler.row.operandCount.toNat + 1)
    rw [hfl]
    obtain heq | ⟨⟨d, r, hcmp | hxor⟩, -⟩ := e.fl_cases
    · exact heq
    · exact absurd hcmp (hi d r).1
    · exact absurd hxor (hi d r).2

/-- Writing register `r` leaves every register whose number is not `r`'s (R22, R25). -/
theorem State.reg_setReg_of_val_ne (s : State) {r q : Fin 8} (v : Byte) (h : q.val ≠ r.val) :
    (s.setReg r v).reg q = s.reg q :=
  State.reg_setReg_other s v fun e => h (congrArg Fin.val e.symm)

/-- Settles O29: a fault writes no register, nor does the advance, and each effect writes its destinations only. -/
theorem onlyDestinationRegistersChange : Obligations.OnlyDestinationRegistersChange := by
  intro i s u h q hq
  obtain rfl | ⟨t, e, rfl⟩ := exec_cases h
  · rfl
  obtain ⟨hregs, -, -⟩ := t.frame_ite_advance i.handler.row.controlsPc (i.handler.row.operandCount.toNat + 1)
  suffices t.reg q = s.reg q by simpa only [State.reg, hregs] using this
  cases i
  case hlt | not | and | or | shl | shr | mod => obtain rfl := e; rfl
  case prn | jmp => obtain ⟨_, _, rfl⟩ := e; rfl
  case cmp => obtain ⟨_, _, _, rfl⟩ := e; rfl
  case jeq | jne => obtain ⟨_, _, _, rfl⟩ | ⟨_, rfl⟩ := e <;> rfl
  case ret => obtain ⟨_, rfl⟩ := e; exact State.reg_setReg_of_val_ne _ _ (List.ne_of_not_mem_cons hq)
  case ldi => obtain ⟨_, _, rfl⟩ := e; exact State.reg_setReg_of_val_ne _ _ (List.ne_of_not_mem_cons hq)
  case push | call | add | mul | xor =>
    obtain ⟨_, _, _, rfl⟩ := e
    exact State.reg_setReg_of_val_ne _ _ (List.ne_of_not_mem_cons hq)
  case pop =>
    obtain ⟨_, _, _, rfl⟩ := e
    have hsp : q.val ∉ [7] := List.not_mem_of_not_mem_cons hq
    rw [State.reg_setReg_of_val_ne _ _ (List.ne_of_not_mem_cons hsp),
      State.reg_setReg_of_val_ne _ _ (List.ne_of_not_mem_cons hq)]

/-! ### What an instruction may read -/

/-- The converse of `exec_cases`: where an effect is possible, it is what the instruction does. -/
theorem exec_of_effect {i : Instr} {s t : State} (e : Effect s t i) :
    exec i s = .next (if i.handler.row.controlsPc then t else t.advance (i.handler.row.operandCount.toNat + 1)) := by
  cases i
  case hlt | not | and | or | shl | shr | mod => obtain rfl := e; rfl
  case ret =>
    obtain ⟨hs, rfl⟩ := e
    simp only [exec, execRet, memRead_byte, Result.ok_bind, spInc_of_lt s hs, ofNat_sp_add_one, complete_ok]
    rfl
  case push d =>
    obtain ⟨hd, hp, hs, rfl⟩ := e
    simp only [exec, execPush, operand1_of_lt s d hp, spDec_of_pos s hs, readReg_of_lt _ hd, memWrite_byte,
      Result.ok_bind, State.sp_setReg_seven, toNat_sp_sub_one, BitVec.ofNat_toNat, BitVec.setWidth_eq, complete_ok]
    rw [ofNat_sp_sub_one _ hs]
    rfl
  case pop d =>
    obtain ⟨hd, hp, hs, rfl⟩ := e
    simp only [exec, execPop, operand1_of_lt s d hp, memRead_byte, writeReg_of_lt _ _ hd, BitVec.ofNat_toNat,
      BitVec.setWidth_eq, spInc_of_lt _ hs, ofNat_sp_add_one, Result.ok_bind, complete_ok]
    rfl
  case prn d =>
    obtain ⟨hd, hp, rfl⟩ := e
    simp only [exec, execPrn, operand1_of_lt s d hp, readReg_of_lt s hd, Result.ok_bind, complete_ok]
    rfl
  case call d =>
    obtain ⟨hd, hp, hs, rfl⟩ := e
    simp only [exec, execCall, operand1_of_lt s d hp, spDec_of_pos s hs, readReg_of_lt _ hd, memWrite_byte,
      Result.ok_bind, State.sp_setReg_seven, toNat_sp_sub_one, complete_ok]
    rw [ofNat_sp_sub_one _ hs]
    rfl
  case jmp d =>
    obtain ⟨hd, hp, rfl⟩ := e
    simp only [exec, execJmp, jumpThrough_of_readable hd hp, complete_ok]
    rfl
  case jeq d =>
    obtain ⟨hf, hd, hp, rfl⟩ | ⟨hf, rfl⟩ := e
    · simp only [exec, execJeq, State.flagsEqual, beq_iff_eq, if_pos hf, jumpThrough_of_readable hd hp, complete_ok]
      rfl
    · simp only [exec, execJeq, State.flagsEqual, beq_iff_eq, if_neg hf, complete_ok]
      rfl
  case jne d =>
    obtain ⟨hf, hd, hp, rfl⟩ | ⟨hf, rfl⟩ := e
    · simp only [exec, execJne, State.flagsEqual, beq_iff_eq, if_neg hf, jumpThrough_of_readable hd hp, complete_ok]
      rfl
    · simp only [exec, execJne, State.flagsEqual, beq_iff_eq, if_pos hf, complete_ok]
      rfl
  case ldi d imm =>
    obtain ⟨hd, hp, rfl⟩ := e
    simp only [exec, execLdi, operand1_of_lt s d (by omega), operand2_of_lt s imm hp, writeReg_of_lt _ _ hd,
      immediate_toByte, Result.ok_bind, complete_ok]
    rfl
  case add d r =>
    obtain ⟨hd, hr, hp, rfl⟩ := e
    simp only [exec, execAdd, aluHandler_of_readable _ hd hr hp, alu, Result.ok_bind, writeBack, writeFlags,
      writeReg_of_lt _ _ hd, complete_ok]
    rfl
  case mul d r =>
    obtain ⟨hd, hr, hp, rfl⟩ := e
    simp only [exec, execMul, aluHandler_of_readable _ hd hr hp, alu, Result.ok_bind, writeBack, writeFlags,
      writeReg_of_lt _ _ hd, complete_ok]
    rfl
  case xor d r =>
    obtain ⟨hd, hr, hp, rfl⟩ := e
    simp only [exec, execXor, aluHandler_of_readable _ hd hr hp, alu, Result.ok_bind, writeBack, writeFlags,
      writeReg_of_lt _ _ hd, complete_ok]
    rfl
  case cmp d r =>
    obtain ⟨hd, hr, hp, rfl⟩ := e
    simp only [exec, execCmp, aluHandler_of_readable _ hd hr hp, alu, Result.ok_bind, writeBack, writeFlags, complete_ok]
    rfl

/-- Two states that hold the same registers, pc and memory; the same Flags where `flags` asks for it, and the same
`running`, `halt_cause` and emitted bytes where `status` does. -/
structure State.Agree (flags status : Prop) (s t : State) : Prop where
  regs : t.regs = s.regs
  pc : t.pc = s.pc
  mem : t.mem = s.mem
  fl : flags → t.fl = s.fl
  status : status → t.running = s.running ∧ t.haltCause = s.haltCause ∧ t.output = s.output

theorem State.Agree.symm {flags status : Prop} {s t : State} (h : State.Agree flags status s t) :
    State.Agree flags status t s where
  regs := h.regs.symm
  pc := h.pc.symm
  mem := h.mem.symm
  fl hf := (h.fl hf).symm
  status hs := by obtain ⟨hr, hc, ho⟩ := h.status hs; exact ⟨hr.symm, hc.symm, ho.symm⟩

theorem State.Agree.halt {flags status : Prop} {s t : State} (h : State.Agree flags status s t) (c : HaltCause) :
    State.Agree flags status (s.halt c) (t.halt c) where
  regs := h.regs
  pc := h.pc
  mem := h.mem
  fl := h.fl
  status hs := ⟨rfl, rfl, (h.status hs).2.2⟩

theorem State.Agree.ite_advance {flags status : Prop} {s t : State} (h : State.Agree flags status s t)
    (b : Bool) (n : Nat) :
    State.Agree flags status (if b then s else s.advance n) (if b then t else t.advance n) := by
  cases b
  · exact ⟨h.regs, by simp [h.pc], h.mem, h.fl, h.status⟩
  · exact h

/-- An effect possible in one state is possible in any state that agrees with it, and leaves states that agree: Flags
are looked at by JEQ and JNE only, the status by none (R27, R33). -/
theorem Effect.of_agree {flags status : Prop} {i : Instr} {s s' t : State}
    (hi : flags ∨ ∀ d, i ≠ .jeq d ∧ i ≠ .jne d) (h : State.Agree flags status s s') (e : Effect s t i) :
    ∃ t', Effect s' t' i ∧ State.Agree flags status t t' := by
  cases i
  case hlt => obtain rfl := e; exact ⟨_, rfl, h.halt .hlt⟩
  all_goals
    obtain ⟨regs, fl, pc, running, haltCause, mem, output⟩ := s
    obtain ⟨regs', fl', pc', running', haltCause', mem', output'⟩ := s'
    obtain ⟨hregs, hpc, hmem, hfl, hst⟩ := h
    cases hregs; cases hpc; cases hmem
  case not | and | or | shl | shr | mod => obtain rfl := e; exact ⟨_, rfl, rfl, rfl, rfl, hfl, hst⟩
  case ret => obtain ⟨hs, rfl⟩ := e; exact ⟨_, ⟨hs, rfl⟩, rfl, rfl, rfl, hfl, hst⟩
  case push | pop | call | add | mul =>
    obtain ⟨hd, hp, hs, rfl⟩ := e; exact ⟨_, ⟨hd, hp, hs, rfl⟩, rfl, rfl, rfl, hfl, hst⟩
  case xor | cmp => obtain ⟨hd, hr, hp, rfl⟩ := e; exact ⟨_, ⟨hd, hr, hp, rfl⟩, rfl, rfl, rfl, fun _ => rfl, hst⟩
  case jmp | ldi => obtain ⟨hd, hp, rfl⟩ := e; exact ⟨_, ⟨hd, hp, rfl⟩, rfl, rfl, rfl, hfl, hst⟩
  case prn =>
    obtain ⟨hd, hp, rfl⟩ := e
    refine ⟨_, ⟨hd, hp, rfl⟩, rfl, rfl, rfl, hfl, fun hs => ?_⟩
    obtain ⟨hr, hc, ho⟩ := hst hs
    exact ⟨hr, hc, congrArg (· ++ _) ho⟩
  case jeq d =>
    obtain hf | hne := hi
    · cases hfl hf
      obtain ⟨hq, hd, hp, rfl⟩ | ⟨hq, rfl⟩ := e
      · exact ⟨_, .inl ⟨hq, hd, hp, rfl⟩, rfl, rfl, rfl, hfl, hst⟩
      · exact ⟨_, .inr ⟨hq, rfl⟩, rfl, rfl, rfl, hfl, hst⟩
    · exact absurd rfl (hne d).1
  case jne d =>
    obtain hf | hne := hi
    · cases hfl hf
      obtain ⟨hq, hd, hp, rfl⟩ | ⟨hq, rfl⟩ := e
      · exact ⟨_, .inl ⟨hq, hd, hp, rfl⟩, rfl, rfl, rfl, hfl, hst⟩
      · exact ⟨_, .inr ⟨hq, rfl⟩, rfl, rfl, rfl, hfl, hst⟩
    · exact absurd rfl (hne d).2

/-- An effect possible in one of two agreeing states settles both runs, and they end in agreement. -/
theorem Effect.agree_of_exec {flags status : Prop} {i : Instr} {s s' t u u' : State}
    (hi : flags ∨ ∀ d, i ≠ .jeq d ∧ i ≠ .jne d) (h : State.Agree flags status s s') (e : Effect s t i)
    (hu : exec i s = .next u) (hu' : exec i s' = .next u') : State.Agree flags status u u' := by
  obtain ⟨t', e', ht⟩ := e.of_agree hi h
  rw [exec_of_effect e] at hu; cases hu
  rw [exec_of_effect e'] at hu'; cases hu'
  exact ht.ite_advance _ _

/-- Two runs of an instruction from agreeing states end in agreement: both fault, or one has an effect and then both do. -/
theorem exec_agree {flags status : Prop} {i : Instr} {s s' u u' : State}
    (hi : flags ∨ ∀ d, i ≠ .jeq d ∧ i ≠ .jne d) (h : State.Agree flags status s s')
    (hu : exec i s = .next u) (hu' : exec i s' = .next u') : State.Agree flags status u u' := by
  obtain hfault | ⟨t, e, -⟩ := exec_cases hu
  · obtain hfault' | ⟨t', e', -⟩ := exec_cases hu'
    · subst hfault hfault'; exact h.halt .outOfBounds
    · exact (e'.agree_of_exec hi h.symm hu' hu).symm
  · exact e.agree_of_exec hi h hu hu'

/-- Settles O31: the two states agree on everything but Flags, which the instruction does not look at. -/
theorem onlyConditionalBranchesReadFlags : Obligations.OnlyConditionalBranchesReadFlags := by
  intro i s t u f hi ht hu
  have hs : State.Agree False True s { s with fl := f } := ⟨rfl, rfl, rfl, False.elim, fun _ => ⟨rfl, rfl, rfl⟩⟩
  obtain ⟨hregs, hpc, hmem, -, hst⟩ := exec_agree (.inr hi) hs ht hu
  obtain ⟨hr, hc, ho⟩ := hst trivial
  exact ⟨hregs, hpc, hr, hc, hmem, ho⟩

/-- Settles O32: the two states agree on everything but the status, which no instruction looks at. -/
theorem statusIsNeverReadAsData : Obligations.StatusIsNeverReadAsData := by
  intro i s t u b c o ht hu
  have hs : State.Agree True False s { s with running := b, haltCause := c, output := o } :=
    ⟨rfl, rfl, rfl, fun _ => rfl, False.elim⟩
  obtain ⟨hregs, hpc, hmem, hfl, -⟩ := exec_agree (.inl trivial) hs ht hu
  exact ⟨hregs, hfl trivial, hpc, hmem⟩

end Sys2Proof.Machine
end

section
/-! PROOFS. 10_state, reset and the invariant: reset meets it and every step keeps it (R26, R28, R29, R31, R36, R50,
R103, R222, R224, R260). -/

namespace Sys2Proof.Machine

/-! ### Reset -/

/-- Settles O7: `launch` puts the seven register values and then SP, so R7 is the last one pushed. -/
theorem resetLeavesTheResetState : Obligations.ResetLeavesTheResetState := by
  intro s L
  have hregs (r : Fin 7) : (s.reinit L).reg r.castSucc = L.regInit[r.val] := Vector.getElem_push_lt r.isLt
  exact ⟨rfl, Vector.getElem_push_eq, hregs, rfl, rfl, rfl, rfl, rfl⟩

/-- Whatever the launch parameters, a launch over canonical memory meets the invariant. -/
theorem State.inv_launch (L : Launch) {m : Memory} (hm : m.wf) : (State.launch L m).Inv where
  memCanonical := hm
  flagsLegal := by rw [State.launch_fl]; decide
  pcReachable := by rw [State.launch_pc]; decide
  causeNoneIffRunning := iff_of_true rfl rfl
  invalidAtZero _ := rfl
  neverUnsupported := by rw [State.launch_haltCause]; decide

/-- Settles O46: the model's reset state is a launch over the empty memory. -/
theorem resetMeetsTheInvariant : Obligations.ResetMeetsTheInvariant :=
  ⟨fun L _ hm => State.inv_launch L hm, State.inv_launch _ Memory.wf_nil⟩

/-! ### Fetch and decode -/

/-- Fetch and decode raise OutOfBounds or InvalidInstruction (R102, R103). -/
theorem fetchDecode_eq_error {s : State} {c : HaltCause} (h : fetchDecode s = .error c) :
    c = .outOfBounds ∨ c = .invalidInstruction := by
  obtain ⟨-, hf⟩ | ⟨-, -, hf⟩ | ⟨_, -, -, _, _, hf, -⟩ := fetchDecode_cases s <;> rw [hf] at h <;> cases h
  · exact .inl rfl
  · exact .inr rfl

/-- An instruction is fetched from a byte address only (R102). -/
theorem fetchDecode_eq_ok {s : State} {i : Instr} (h : fetchDecode s = .ok i) : s.pc.toNat < 256 := by
  obtain ⟨-, hf⟩ | ⟨-, -, hf⟩ | ⟨_, hp, -⟩ := fetchDecode_cases s
  · rw [hf] at h; cases h
  · rw [hf] at h; cases h
  · exact hp

/-- Taking either fault of a fetch keeps the invariant: InvalidInstruction sets pc to 0 (R221, R222). -/
theorem State.Inv.takeFault {s : State} (hs : s.Inv) {c : HaltCause} (hc : c = .outOfBounds ∨ c = .invalidInstruction) :
    (s.takeFault c).Inv := by
  obtain rfl | rfl := hc
  · exact ⟨hs.memCanonical, hs.flagsLegal, hs.pcReachable, by simp, by simp, by simp⟩
  · exact ⟨hs.memCanonical, hs.flagsLegal, by simp, by simp, by simp, by simp⟩

/-! ### An instruction run at a byte address -/

theorem exec_mem_wf {i : Instr} {s u : State} (h : exec i s = .next u) (hm : s.mem.wf) : u.mem.wf := by
  obtain rfl | ⟨t, e, rfl⟩ := exec_cases h
  · exact hm
  · obtain ⟨-, -, hmem⟩ := t.frame_ite_advance i.handler.row.controlsPc (i.handler.row.operandCount.toNat + 1)
    rw [hmem]
    exact e.mem_wf hm

theorem exec_legalFlags {i : Instr} {s u : State} (h : exec i s = .next u) (hf : legalFlags s.fl = true) :
    legalFlags u.fl = true := by
  obtain rfl | ⟨t, e, rfl⟩ := exec_cases h
  · exact hf
  · obtain ⟨-, hfl, -⟩ := t.frame_ite_advance i.handler.row.controlsPc (i.handler.row.operandCount.toNat + 1)
    rw [hfl]
    obtain heq | ⟨-, hlegal⟩ := e.fl_cases
    · rw [heq]; exact hf
    · exact hlegal

/-- From a byte address pc goes at most three bytes on, to 258 (R29). -/
theorem exec_pc_le {i : Instr} {s u : State} (h : exec i s = .next u) (hp : s.pc.toNat < 256) :
    u.pc.toNat ≤ 258 := by
  cases hc : i.handler.row.controlsPc
  case false =>
    obtain hpc | rfl := theAdvanceNeverWraps i s u hc hp h
    · have := length_encode_le i; omega
    · exact hp.le.trans (by decide)
  case true =>
    obtain hlt | ⟨-, hpc⟩ | rfl := transfersGoToByteAddresses i s u hc h
    · omega
    · have hadv : u.pc.toNat = s.pc.toNat + 2 := hpc ▸ s.toNat_advance_pc hp (by decide)
      omega
    · exact hp.le.trans (by decide)

/-- A running machine goes on with no halt cause, or stops by HLT or OutOfBounds (R31, R122, R221). -/
theorem exec_status {i : Instr} {s u : State} (h : exec i s = .next u) (hr : s.running = true)
    (hc : s.haltCause = .none) :
    (u.running = true ∧ u.haltCause = .none) ∨
      (u.running = false ∧ (u.haltCause = .hlt ∨ u.haltCause = .outOfBounds)) := by
  obtain ⟨hr', hc'⟩ | ⟨-, hr', hc'⟩ | rfl := aFaultCommitsNothing i s u h
  · exact .inl ⟨hr'.trans hr, hc'.trans hc⟩
  · exact .inr ⟨hr', .inl hc'⟩
  · exact .inr ⟨rfl, .inr rfl⟩

/-- An instruction run at a byte address while running keeps the invariant. -/
theorem State.Inv.exec {i : Instr} {s u : State} (hs : s.Inv) (hr : s.running = true) (hp : s.pc.toNat < 256)
    (h : exec i s = .next u) : u.Inv := by
  have hstatus := exec_status h hr (hs.causeNoneIffRunning.1 hr)
  refine ⟨exec_mem_wf h hs.memCanonical, exec_legalFlags h hs.flagsLegal, exec_pc_le h hp, ?_, ?_, ?_⟩ <;>
    obtain ⟨hr', hc'⟩ | ⟨hr', hc' | hc'⟩ := hstatus <;> simp [hr', hc']

/-- Settles O47: a halted machine stays as it is, a fetch takes one of two faults, and an instruction that was fetched
lies at a byte address. -/
theorem everyStepKeepsTheInvariant : Obligations.EveryStepKeepsTheInvariant := by
  intro s t hs h
  obtain ⟨-, hstep⟩ | ⟨-, c, hf, hstep⟩ | ⟨hr, i, hf, hstep⟩ := step_cases s <;> rw [hstep] at h
  · cases h; exact hs
  · cases h; exact hs.takeFault (fetchDecode_eq_error hf)
  · exact hs.exec hr (fetchDecode_eq_ok hf) h

end Sys2Proof.Machine
end

section
/-! PROOFS. 20_memory: a read gives the last write, the canonical form is unique, only PUSH and CALL store, and a step
runs the instruction whose encoding lies at pc (R50 to R55, R57, R60, R62, R101, R173, R190). -/

namespace Sys2Proof.Machine

/-! ### Reads and writes -/

/-- A byte of memory holds a number mod 256 (R52). -/
theorem byte_ofNat_mod (v : Nat) : BitVec.ofNat 8 (v % 256) = BitVec.ofNat 8 v := by
  apply BitVec.eq_of_toNat_eq
  simp

/-- The bound check of a read does not look at memory, so reads agree where the contents do (R51). -/
theorem memRead_congr {s t : State} {a : Nat} (h : t.mem.read a = s.mem.read a) : memRead t a = memRead s a := by
  rw [memRead, memRead, h]

/-- Settles O27, from the two sides of the bound check and the law of read after write. -/
theorem memoryReadsTheLastWrite : Obligations.MemoryReadsTheLastWrite := by
  intro s a v
  refine ⟨fun ha => ⟨memRead_of_ge s ha, memWrite_of_ge s v ha⟩, fun ha => ⟨memRead_of_lt s ha, ?_⟩⟩
  refine ⟨_, memWrite_of_lt s v ha, ?_, fun b hb => ?_, rfl⟩
  · rw [memRead_of_lt _ ha, Memory.read_write_same, byte_ofNat_mod]
  · exact memRead_congr (Memory.read_write_other s.mem _ hb)

/-! ### The canonical form -/

/-- In canonical form what is listed is settled by the reads below 256, where every entry lies (R50). -/
theorem Memory.mem_of_read_eq {m n : Memory} (hm : m.wf) (hn : n.wf) (h : ∀ a, a < 256 → m.read a = n.read a)
    {c : Host.Cell} (hc : c ∈ m) : c ∈ n := by
  obtain ⟨a, v⟩ := c
  obtain ⟨hread, hv⟩ := (Memory.mem_iff_read hm a v).1 hc
  have ha : a < 256 := (hm.2 _ hc).1
  exact (Memory.mem_iff_read hn a v).2 ⟨h a ha ▸ hread, hv⟩

/-- Settles O28: the two lists have the same entries, in strictly rising order. -/
theorem canonicalMemoriesAreEqualWhenTheyReadAlike : Obligations.CanonicalMemoriesAreEqualWhenTheyReadAlike := by
  intro m n hm hn h
  exact hm.1.eq_of_mem_iff hn.1 fun _ =>
    ⟨Memory.mem_of_read_eq hm hn h, Memory.mem_of_read_eq hn hm fun a ha => (h a ha).symm⟩

/-! ### The stores of PUSH and CALL -/

/-- Memory after an instruction is that of its effect, since the advance does not touch it, unless OutOfBounds is taken
(R101 step 4, R221). -/
theorem exec_mem_cases {i : Instr} {s u : State} (h : exec i s = .next u) :
    u = { s with running := false, haltCause := .outOfBounds } ∨ ∃ t, Effect s t i ∧ u.mem = t.mem := by
  obtain hfault | ⟨t, e, rfl⟩ := exec_cases h
  · exact .inl hfault
  · obtain ⟨-, -, hmem⟩ := t.frame_ite_advance i.handler.row.controlsPc (i.handler.row.operandCount.toNat + 1)
    exact .inr ⟨t, e, hmem⟩

/-- Every effect but those of PUSH and CALL leaves memory alone (R54). -/
theorem Effect.mem_eq {i : Instr} {s t : State} (e : Effect s t i) (hi : ∀ d, i ≠ .push d ∧ i ≠ .call d) :
    t.mem = s.mem := by
  cases i
  case push d => exact absurd rfl (hi d).1
  case call d => exact absurd rfl (hi d).2
  case hlt | not | and | or | shl | shr | mod => obtain rfl := e; rfl
  case ret => obtain ⟨_, rfl⟩ := e; rfl
  case prn | jmp | ldi => obtain ⟨_, _, rfl⟩ := e; rfl
  case pop | add | mul | xor | cmp => obtain ⟨_, _, _, rfl⟩ := e; rfl
  case jeq | jne => obtain ⟨_, _, _, rfl⟩ | ⟨_, rfl⟩ := e <;> rfl

/-- Settles O33: a fault leaves memory, and so does every effect but those of PUSH and CALL. -/
theorem onlyPushAndCallWriteMemory : Obligations.OnlyPushAndCallWriteMemory := by
  intro i s u h hi a
  obtain rfl | ⟨t, e, hmem⟩ := exec_mem_cases h
  · rfl
  · rw [hmem, e.mem_eq hi]

/-- The store of PUSH and of CALL, in terms of the state `u` that the decrement leaves: one byte, at `u`'s SP, which is
the register as `u` holds it or the return address (R173, R190). -/
theorem Effect.mem_of_push_or_call {d : Byte} {i : Instr} {s t : State} (e : Effect s t i)
    (hi : i = .push d ∨ i = .call d) :
    ∃ u, spDec s = .ok u ∧ ∃ hd : d.toNat < 8, t.mem = s.mem.write u.sp.toNat
      (if i = .push d then u.reg ⟨d.toNat, hd⟩ else BitVec.ofNat 8 (s.pc.toNat + 2)) := by
  obtain rfl | rfl := hi
  all_goals
    obtain ⟨hd, -, hs, rfl⟩ := e
    refine ⟨_, spDec_of_pos s hs, hd, ?_⟩
    rw [State.sp_setReg_seven, toNat_sp_sub_one, ofNat_sp_sub_one _ hs]
  · rw [if_pos rfl]
  · rw [if_neg nofun]; rfl

/-- Settles O34: a fault leaves memory, and the effects of PUSH and CALL are one write each. -/
theorem pushAndCallWriteOneByte : Obligations.PushAndCallWriteOneByte := by
  intro d i s u hi h
  obtain rfl | ⟨t, e, hmem⟩ := exec_mem_cases h
  · exact ⟨fun _ _ _ _ => rfl, fun _ _ _ => rfl, .inl rfl⟩
  · obtain ⟨w, hw, hd, hstore⟩ := e.mem_of_push_or_call hi
    rw [hmem, hstore, hw]
    refine ⟨?_, fun _ hc => (nomatch hc), .inr ⟨w, rfl, hd, ?_⟩⟩
    · rintro _ ⟨⟩ a ha
      exact Memory.read_write_other _ _ ha
    · rw [Memory.read_write_same, byte_ofNat_mod]
      rfl

/-! ### The instruction at pc -/

/-- Decoding an encoding gives the instruction back, whatever bytes follow it (R70 to R72, R81). -/
theorem decode_encode_append (i : Instr) (rest : List Byte) : decode (encode i ++ rest) = .ok (i, rest) := by
  cases i <;> simp only [encode, Instr.handler, Instr.operands, List.cons_append, decode, dispatchRom_opcode] <;> rfl

theorem windowByte_of_lt {s : State} {a : Nat} (ha : a < 256) : windowByte s a = s.mem.read a := if_pos ha

/-- From a byte address the decode window holds the three window bytes from pc on (R55, R102). -/
theorem fetchWindow_of_lt {s : State} (hp : s.pc.toNat < 256) :
    fetchWindow s = .ok ((List.range 3).map fun k => windowByte s (s.pc.toNat + k)) := by
  rw [fetchWindow, memRead_of_lt s hp, ← windowByte_of_lt hp]
  rfl

/-- Where an encoding lies in memory from pc on it begins the decode window, so it is what the fetch decodes (R62). -/
theorem fetchDecode_of_encoding {s : State} {i : Instr}
    (h : ∀ k b, (encode i)[k]? = some b → s.pc.toNat + k < 256 ∧ s.mem.read (s.pc.toNat + k) = b) :
    fetchDecode s = .ok i := by
  have hp : s.pc.toNat < 256 := (h 0 _ rfl).1
  have hprefix : encode i <+: (List.range 3).map fun k => windowByte s (s.pc.toNat + k) := by
    rw [List.prefix_iff_getElem?]
    intro k hk
    have hk3 : k < 3 := hk.trans_le (length_encode_le i)
    obtain ⟨hlt, hread⟩ := h k _ (List.getElem?_eq_getElem hk)
    rw [List.getElem?_map, List.getElem?_range hk3, Option.map_some, windowByte_of_lt hlt, hread]
  obtain ⟨rest, hrest⟩ := hprefix
  rw [fetchDecode, fetchWindow_of_lt hp, ← hrest, Result.ok_bind, decode_encode_append]

/-- Settles O41: the machine is running and the fetch decodes the instruction. -/
theorem aStepRunsTheEncodedInstruction : Obligations.AStepRunsTheEncodedInstruction := by
  intro s i hr h
  rw [step, if_pos hr, fetchDecode_of_encoding h]

end Sys2Proof.Machine
end

section
/-! PROOFS. 30_encoding: decoding and encoding are inverse, the dispatch ROM holds the twenty rows of R78 with the
opcode bits as their metadata, and every other opcode byte is rejected (R70 to R74, R78, R80 to R82). -/

namespace Sys2Proof

/-! ### Decoding and encoding -/

/-- Settles O4: it is the law that the fetch of an encoding rests on. -/
theorem decodingAnEncodingGivesItBack : Obligations.DecodingAnEncodingGivesItBack :=
  Machine.decode_encode_append

/-- The decoder rejects an opcode by its entry in the ROM alone (R80). -/
theorem decode_cons_of_dispatchRom_eq_none {opc : Byte} (h : dispatchRom opc = none) (rest : List Byte) :
    decode (opc :: rest) = .error (.invalidOpcode opc) := by
  rw [decode, h]

/-- A handler's instruction is encoded as the opcode of its row and as many operand bytes as the row counts (R70,
R71). -/
theorem encode_instr (h : HandlerId) (b1 b2 : Byte) :
    encode (h.instr b1 b2) = h.row.opcode :: [b1, b2].take h.row.operandCount.toNat := by
  cases h <;> rfl

/-- Settles O5: the first byte is the opcode of the handler it dispatches to, and the decoder takes as many operand
bytes as the encoder writes. -/
theorem decodedBytesAreTheEncoding : Obligations.DecodedBytesAreTheEncoding := by
  rintro (_ | ⟨opc, bs⟩) rest i hdec
  · cases hdec
  · cases hrom : dispatchRom opc with
    | none => rw [decode_cons_of_dispatchRom_eq_none hrom] at hdec; cases hdec
    | some h =>
      obtain rfl := (dispatchRom_eq_some_iff opc h).1 hrom
      simp only [decode, hrom] at hdec
      split at hdec <;> cases hdec
      all_goals
        next hcount => rw [encode_instr, hcount]; rfl

/-- Settles O3: the words are encodings with nothing after them. -/
theorem writtenOutWordsDecode : Obligations.WrittenOutWordsDecode :=
  have decodes (i : Instr) : decode (encode i ++ []) = .ok (i, []) := Machine.decode_encode_append i []
  ⟨decodes .hlt, decodes .ret, decodes (.push 3), decodes (.prn 0), decodes (.call 1), decodes (.jeq 255),
    decodes (.not 9), decodes (.ldi 0 8), decodes (.mul 0 1), decodes (.xor 2 6), decodes (.shr 0 1)⟩

/-! ### The metadata of the dispatch ROM -/

/-- Bits 7:6 of an opcode are its shift right by 6 (R72). -/
theorem toNat_operandCountBits (opc : Byte) : (operandCountBits opc).toNat = opc.toNat / 64 := by
  rw [operandCountBits, BitVec.extractLsb'_toNat, Nat.shiftRight_eq_div_pow]
  have := opc.isLt
  omega

/-- Bit 4 of an opcode is the last binary digit of its shift right by 4 (R73). -/
theorem controlsPcBit_eq_decide (opc : Byte) : controlsPcBit opc = decide (opc.toNat / 16 % 2 = 1) :=
  Nat.testBit_eq_decide_div_mod_eq

/-- Every row stores bits 7:6 of its opcode as the operand count (R74). -/
theorem HandlerId.operandCount_row (h : HandlerId) : h.row.operandCount = operandCountBits h.row.opcode := by
  cases h <;> rfl

/-- Every row stores bit 4 of its opcode as controls_pc (R74). -/
theorem HandlerId.controlsPc_row (h : HandlerId) : h.row.controlsPc = controlsPcBit h.row.opcode := by
  cases h <;> rfl

/-- Settles O2: a valid opcode is that of its handler's row, and the row stores the opcode's bits. -/
theorem romMetadataAreTheOpcodeBits : Obligations.RomMetadataAreTheOpcodeBits := by
  intro opc h hrom
  obtain rfl := (dispatchRom_eq_some_iff opc h).1 hrom
  exact ⟨rfl, h.operandCount_row ▸ toNat_operandCountBits _, h.controlsPc_row ▸ controlsPcBit_eq_decide _⟩

/-! ### The valid entries of the dispatch ROM -/

/-- The valid entries are the opcodes of the twenty rows (R78). -/
theorem dispatchRom_isSome_iff (opc : Byte) :
    (dispatchRom opc).isSome ↔ opc ∈ HandlerId.all.map fun h => h.row.opcode := by
  simp [Option.isSome_iff_exists, dispatchRom_eq_some_iff, HandlerId.mem_all]

/-- Settles O6: the list in the statement is that of the twenty rows' opcodes. -/
theorem otherOpcodesAreInvalid : Obligations.OtherOpcodesAreInvalid := by
  intro opc rest hopc
  apply decode_cons_of_dispatchRom_eq_none
  rw [← Option.not_isSome_iff_eq_none, dispatchRom_isSome_iff]
  exact hopc

/-- The addresses of the valid entries, in rising order, are the twenty opcodes in the order of R78. -/
theorem filter_dispatchRom_isSome :
    ((List.range 256).filter fun n => (dispatchRom (BitVec.ofNat 8 n)).isSome) =
      HandlerId.all.map fun h => h.row.opcode.toNat := by
  refine (List.pairwise_lt_range.filter _).eq_of_mem_iff (r := (· < ·)) (by decide) fun n => ?_
  simp only [List.mem_filter, List.mem_range, dispatchRom_isSome_iff, List.mem_map, HandlerId.mem_all, true_and]
  constructor
  · rintro ⟨hn, h, hopc⟩
    exact ⟨h, by rw [hopc, BitVec.toNat_ofNat, Nat.mod_eq_of_lt hn]⟩
  · rintro ⟨h, rfl⟩
    exact ⟨h.row.opcode.isLt, h, by rw [BitVec.ofNat_toNat, BitVec.setWidth_eq]⟩

/-- Settles O1: each row is found under its own opcode, and the valid entries are listed with the twenty rows. -/
theorem dispatchRomHoldsTheTwentyOpcodes : Obligations.DispatchRomHoldsTheTwentyOpcodes :=
  ⟨⟨dispatchRom_opcode .hlt, dispatchRom_opcode .ret, dispatchRom_opcode .push, dispatchRom_opcode .pop,
      dispatchRom_opcode .prn, dispatchRom_opcode .call, dispatchRom_opcode .jmp, dispatchRom_opcode .jeq,
      dispatchRom_opcode .jne, dispatchRom_opcode .not, dispatchRom_opcode .ldi, dispatchRom_opcode .add,
      dispatchRom_opcode .mul, dispatchRom_opcode .xor, dispatchRom_opcode .mod, dispatchRom_opcode .cmp,
      dispatchRom_opcode .and, dispatchRom_opcode .or, dispatchRom_opcode .shl, dispatchRom_opcode .shr⟩,
    by rw [filter_dispatchRom_isSome, List.length_map]; rfl⟩

end Sys2Proof
end

section
/-! PROOFS. 40_control_unit: a step runs the instruction decoded at pc, a fetch past memory and an invalid opcode stop
the machine, operands nobody reads cannot fault, and a halted machine stays as it is (R100 to R104, R108, R150, R193,
R194, R221, R222). -/

namespace Sys2Proof.Machine

/-! ### The parts of a step -/

/-- From a byte address the decode window holds the opcode byte and the two window bytes after it (R55, R102). -/
theorem fetchWindow_eq_opcode_cons {s : State} (hp : s.pc.toNat < 256) :
    fetchWindow s =
      .ok [s.mem.read s.pc.toNat, windowByte s (s.pc.toNat + 1), windowByte s (s.pc.toNat + 2)] := by
  rw [fetchWindow, memRead_of_lt s hp, Result.ok_bind]

/-- The opcode byte alone settles which handler the fetch dispatches to (R81, R103). -/
theorem fetchDecode_of_opcode {s : State} {h : HandlerId} (hp : s.pc.toNat < 256)
    (hopc : s.mem.read s.pc.toNat = h.row.opcode) : ∃ b1 b2, fetchDecode s = .ok (h.instr b1 b2) := by
  have hrom : dispatchRom (s.mem.read s.pc.toNat) = some h := (dispatchRom_eq_some_iff _ _).2 hopc.symm
  obtain ⟨hge, -⟩ | ⟨-, hnone, -⟩ | ⟨h', -, hrom', b1, b2, hf, -⟩ := fetchDecode_cases s
  · omega
  · rw [hrom] at hnone; cases hnone
  · obtain rfl : h = h' := Option.some.inj (hrom.symm.trans hrom')
    exact ⟨b1, b2, hf⟩

theorem step_of_fetchDecode_ok {s : State} {i : Instr} (hr : s.running = true) (hf : fetchDecode s = .ok i) :
    step s = exec i s := by
  rw [step, if_pos hr, hf]

theorem step_of_fetchDecode_error {s : State} {c : HaltCause} (hr : s.running = true)
    (hf : fetchDecode s = .error c) : step s = .next (s.takeFault c) := by
  rw [step, if_pos hr, hf]

/-- In HALTED a step request does nothing (R100, R108). -/
theorem step_of_not_running {s : State} (hr : s.running = false) : step s = .next s := by
  rw [step, hr, if_neg Bool.false_ne_true]

/-! ### Opcodes that fault -/

/-- Settles O43: the decoder rejects the opcode byte whatever follows it, and the fault is taken as R222 says. -/
theorem anInvalidOpcodeHaltsAtZero : Obligations.AnInvalidOpcodeHaltsAtZero := by
  intro s hr hp hopc
  have hf : fetchDecode s = .error .invalidInstruction := by
    rw [fetchDecode, fetchWindow_eq_opcode_cons hp, Result.ok_bind, otherOpcodesAreInvalid _ _ hopc]
  rw [step_of_fetchDecode_error hr hf, State.takeFault_invalidInstruction]

/-! ### Operands that are not read -/

/-- A reserved no-op of three bytes only advances pc past them (R150). -/
theorem exec_reserved_of_three_bytes {h : HandlerId} (hh : h ∈ [.and, .or, .shl, .shr, .mod]) (b1 b2 : Byte)
    (s : State) : exec (h.instr b1 b2) s = .next (s.advance 3) := by
  simp only [List.mem_cons, List.not_mem_nil, or_false] at hh
  obtain rfl | rfl | rfl | rfl | rfl := hh <;> rfl

/-- NOT, the reserved no-op of two bytes, only advances pc past them (R153). -/
theorem exec_not (d : Byte) (s : State) : exec (.not d) s = .next (s.advance 2) := rfl

theorem State.flagsEqual_iff (s : State) : s.flagsEqual = true ↔ s.fl = flEqual := beq_iff_eq

/-- JEQ not taken only advances pc (R193, D22). -/
theorem exec_jeq_of_ne {s : State} (hfl : s.fl ≠ flEqual) (d : Byte) :
    exec (.jeq d) s = .next (s.advance 2) := by
  rw [exec, execJeq, if_neg (mt s.flagsEqual_iff.1 hfl)]
  rfl

/-- JNE not taken only advances pc (R194, D22). -/
theorem exec_jne_of_eq {s : State} (hfl : s.fl = flEqual) (d : Byte) :
    exec (.jne d) s = .next (s.advance 2) := by
  rw [exec, execJne, if_pos (s.flagsEqual_iff.2 hfl)]
  rfl

/-- What a handler does whatever its operand bytes are, the step does wherever the handler's opcode byte lies. -/
theorem step_of_opcode {s t : State} {h : HandlerId} (hr : s.running = true) (hp : s.pc.toNat < 256)
    (hopc : s.mem.read s.pc.toNat = h.row.opcode) (hexec : ∀ b1 b2, exec (h.instr b1 b2) s = .next t) :
    step s = .next t := by
  obtain ⟨b1, b2, hf⟩ := fetchDecode_of_opcode hp hopc
  rw [step_of_fetchDecode_ok hr hf, hexec]

/-- Settles O44: in each case what the instruction does is the same for all operand bytes. -/
theorem unreadOperandsCannotFault : Obligations.UnreadOperandsCannotFault := by
  intro s hr hp
  refine ⟨fun hopc => ?_, fun hopc => ?_, fun hopc hfl => ?_, fun hopc hfl => ?_⟩
  · have hmap : s.mem.read s.pc.toNat ∈ [.and, .or, .shl, .shr, .mod].map fun h : HandlerId => h.row.opcode := hopc
    obtain ⟨h, hh, hrow⟩ := List.mem_map.1 hmap
    exact step_of_opcode hr hp hrow.symm fun b1 b2 => exec_reserved_of_three_bytes hh b1 b2 s
  · exact step_of_opcode (h := .not) hr hp hopc fun b1 _ => exec_not b1 s
  · exact step_of_opcode (h := .jeq) hr hp hopc fun b1 _ => exec_jeq_of_ne hfl b1
  · exact step_of_opcode (h := .jne) hr hp hopc fun b1 _ => exec_jne_of_eq hfl b1

/-! ### Fetch, decode and HALTED -/

/-- Settles O40: the window of the statement is the one the fetch decodes. -/
theorem aStepRunsTheDecodedInstruction : Obligations.AStepRunsTheDecodedInstruction := by
  intro s i rest hr hp hdec
  have hf : fetchDecode s = .ok i := by
    rw [fetchDecode, fetchWindow_eq_opcode_cons hp, Result.ok_bind, hdec]
  exact step_of_fetchDecode_ok hr hf

/-- Settles O42: the read of the opcode byte faults, so nothing is decoded. -/
theorem aFetchPastMemoryFaults : Obligations.AFetchPastMemoryFaults := by
  intro s hr hp
  have hf : fetchDecode s = .error .outOfBounds := by
    rw [fetchDecode, fetchWindow, memRead_of_ge s hp, Result.error_bind, Result.error_bind]
  rw [step_of_fetchDecode_error hr hf, State.takeFault_outOfBounds]

/-- Settles O45, by induction on the number of steps. -/
theorem haltedIsTerminal : Obligations.HaltedIsTerminal := by
  intro n s hr
  induction n with
  | zero => rfl
  | succ n ih => rw [runSteps, step_of_not_running hr]; exact ih

end Sys2Proof.Machine
end

section
/-! PROOFS. 41_load_output_halt: what LDI, PRN and HLT leave, where they fault, and that only PRN emits (R106, R120 to
R122, R221, R238). -/

namespace Sys2Proof.Machine

/-- Where an instruction can have no effect, it takes OutOfBounds and commits nothing (R9, R221). -/
theorem exec_of_no_effect {i : Instr} {s : State} (h : ∀ t, ¬ Effect s t i) :
    exec i s = .next { s with running := false, haltCause := .outOfBounds } := by
  obtain ⟨u, hu⟩ := exec_next i s
  obtain rfl | ⟨t, e, -⟩ := exec_cases hu
  · exact hu
  · exact absurd e (h t)

/-! ### LDI, PRN and HLT -/

/-- Settles O8: LDI has its effect, and the advance by 3, just where both operands are readable and op1 names a
register. -/
theorem ldiLoadsTheImmediate : Obligations.LdiLoadsTheImmediate := by
  intro d imm s
  refine ⟨rfl, fun hd hp => exec_of_effect (i := .ldi d imm) ⟨hd, hp, rfl⟩, fun hbad => exec_of_no_effect ?_⟩
  rintro t ⟨hd, hp, -⟩
  omega

/-- Settles O9: PRN has its effect, and the advance by 2, just where op1 is readable and names a register. -/
theorem prnEmitsTheRegister : Obligations.PrnEmitsTheRegister := by
  intro d s
  refine ⟨rfl, fun hd hp => exec_of_effect (i := .prn d) ⟨hd, hp, rfl⟩, fun hbad => exec_of_no_effect ?_⟩
  rintro t ⟨hd, hp, -⟩
  omega

/-- Settles O10: HLT reads nothing, so it always has its effect, and a machine that is not running stays as it is. -/
theorem hltHaltsOnePastItself : Obligations.HltHaltsOnePastItself :=
  fun _ => ⟨rfl, exec_of_effect (i := .hlt) rfl, step_of_not_running rfl⟩

/-! ### The emitted bytes -/

/-- Every effect but that of PRN leaves the emitted bytes alone; PRN's appends one (R121, R238). -/
theorem Effect.output_cases {i : Instr} {s t : State} (e : Effect s t i) :
    t.output = s.output ∨ ∃ d v, i = .prn d ∧ t.output = s.output ++ [v] := by
  cases i
  case prn d => obtain ⟨_, _, rfl⟩ := e; exact .inr ⟨d, _, rfl, rfl⟩
  case hlt | not | and | or | shl | shr | mod => obtain rfl := e; exact .inl rfl
  case ret => obtain ⟨_, rfl⟩ := e; exact .inl rfl
  case jmp | ldi => obtain ⟨_, _, rfl⟩ := e; exact .inl rfl
  case push | pop | call | add | mul | xor | cmp => obtain ⟨_, _, _, rfl⟩ := e; exact .inl rfl
  case jeq | jne => obtain ⟨_, _, _, rfl⟩ | ⟨_, rfl⟩ := e <;> exact .inl rfl

/-- The advance emits nothing, whether it is made or not (R101 step 4). -/
theorem State.output_ite_advance (t : State) (b : Bool) (n : Nat) :
    (if b then t else t.advance n).output = t.output := by
  cases b <;> rfl

/-- Settles O35: a fault and the advance emit nothing, and of the effects only PRN's does. -/
theorem onlyPrnEmits : Obligations.OnlyPrnEmits := by
  intro i s u h
  obtain rfl | ⟨t, e, rfl⟩ := exec_cases h
  · exact .inl rfl
  · rw [State.output_ite_advance]
    exact e.output_cases

end Sys2Proof.Machine
end

section
/-! PROOFS. 42_alu: what the ALU computes and its laws, what ADD, MUL, CMP and XOR leave and where they fault, and that
the reserved no-ops only advance pc (R140 to R157, R221, R224). -/

namespace Sys2Proof.Machine

/-! ### The ALU's functions -/

/-- Unsigned comparison is a trichotomy, and each case has its own Flags value (R143, R157). -/
theorem aluCompare_cases (a b : Byte) :
    (a.toNat = b.toNat ∧ aluCompare a b = flEqual) ∨ (b.toNat < a.toNat ∧ aluCompare a b = flGreater) ∨
      (a.toNat < b.toNat ∧ aluCompare a b = flLess) := by
  unfold aluCompare
  split
  · next heq => exact .inl ⟨heq, rfl⟩
  · split
    · next hgt => exact .inr (.inl ⟨hgt, rfl⟩)
    · exact .inr (.inr ⟨by omega, rfl⟩)

theorem aluCompare_eq_flGreater_iff (a b : Byte) : aluCompare a b = flGreater ↔ b.toNat < a.toNat := by
  obtain ⟨h, hc⟩ | ⟨h, hc⟩ | ⟨h, hc⟩ := aluCompare_cases a b <;> rw [hc]
  · exact iff_of_false (by decide) (by omega)
  · exact iff_of_true rfl h
  · exact iff_of_false (by decide) (by omega)

theorem aluCompare_eq_flLess_iff (a b : Byte) : aluCompare a b = flLess ↔ a.toNat < b.toNat := by
  obtain ⟨h, hc⟩ | ⟨h, hc⟩ | ⟨h, hc⟩ := aluCompare_cases a b <;> rw [hc]
  · exact iff_of_false (by decide) (by omega)
  · exact iff_of_false (by decide) (by omega)
  · exact iff_of_true rfl h

/-- The result byte of XOR is the not-equal predicate, not the bitwise XOR (R144). -/
theorem aluXor_eq_ite (a b : Byte) : aluXor a b = if a = b then 0 else 1 := by
  simp only [aluXor, aluCompare_eq_flEqual_iff]

theorem aluAdd_comm (a b : Byte) : aluAdd a b = aluAdd b a := by
  rw [aluAdd, aluAdd, Nat.add_comm]

theorem aluMul_comm (a b : Byte) : aluMul a b = aluMul b a := by
  rw [aluMul, aluMul, Nat.mul_comm]

theorem aluAdd_zero (a : Byte) : aluAdd a 0 = a.toNat :=
  Nat.mod_eq_of_lt a.isLt

theorem aluMul_one (a : Byte) : aluMul a 1 = a.toNat := by
  rw [aluMul, show (1 : Byte).toNat = 1 from rfl, Nat.mul_one, Nat.mod_eq_of_lt a.isLt]

theorem aluAdd_lt (a b : Byte) : aluAdd a b < 256 := Nat.mod_lt _ (by decide)

theorem aluMul_lt (a b : Byte) : aluMul a b < 256 := Nat.mod_lt _ (by decide)

/-- The ALU's "sole recognized error" (R140, R145). -/
theorem alu_eq_error_iff (op : AluOp) (a b : Byte) (c : HaltCause) :
    alu op a b = .error c ↔ op = .unrecognised ∧ c = .unsupportedOperation := by
  cases op with
  | add | mul | cmp | xor => exact iff_of_false nofun nofun
  | unrecognised => exact ⟨fun h => by cases h; exact ⟨rfl, rfl⟩, fun ⟨_, hc⟩ => hc ▸ rfl⟩

/-! ### Where the ALU's instructions fault -/

/-- The four ALU instructions have an effect only where both operands are readable and name registers (R146 to R149). -/
theorem Effect.readable_of_alu {i : Instr} {d r : Byte} {s t : State}
    (hi : i ∈ [.add d r, .mul d r, .cmp d r, .xor d r]) (e : Effect s t i) :
    d.toNat < 8 ∧ r.toNat < 8 ∧ s.pc.toNat + 2 < 256 := by
  simp only [List.mem_cons, List.not_mem_nil, or_false] at hi
  obtain rfl | rfl | rfl | rfl := hi <;> obtain ⟨hd, hr, hp, -⟩ := e <;> exact ⟨hd, hr, hp⟩

/-- Elsewhere they take OutOfBounds, Flags untouched (R221). -/
theorem exec_alu_of_unreadable {i : Instr} {d r : Byte} {s : State}
    (hi : i ∈ [.add d r, .mul d r, .cmp d r, .xor d r]) (hbad : 256 ≤ s.pc.toNat + 2 ∨ 8 ≤ d.toNat ∨ 8 ≤ r.toNat) :
    exec i s = .next { s with running := false, haltCause := .outOfBounds } := by
  refine exec_of_no_effect fun t e => ?_
  obtain ⟨hd, hr, hp⟩ := e.readable_of_alu hi
  omega

/-! ### The obligations -/

/-- Settles O11: where the operands are readable ADD has its effect, whose sum is `aluAdd`'s. -/
theorem addWritesTheSumMod256 : Obligations.AddWritesTheSumMod256 :=
  fun d r _ => ⟨rfl, fun hd hr hp => exec_of_effect (i := .add d r) ⟨hd, hr, hp, rfl⟩,
    exec_alu_of_unreadable (by simp)⟩

/-- Settles O12: where the operands are readable MUL has its effect, whose product is `aluMul`'s. -/
theorem mulWritesTheProductMod256 : Obligations.MulWritesTheProductMod256 :=
  fun d r _ => ⟨rfl, fun hd hr hp => exec_of_effect (i := .mul d r) ⟨hd, hr, hp, rfl⟩,
    exec_alu_of_unreadable (by simp)⟩

/-- Settles O13: where the operands are readable CMP has its effect, whose Flags are `aluCompare`'s. -/
theorem cmpWritesTheComparison : Obligations.CmpWritesTheComparison :=
  fun d r _ => ⟨rfl, fun hd hr hp => exec_of_effect (i := .cmp d r) ⟨hd, hr, hp, rfl⟩,
    exec_alu_of_unreadable (by simp)⟩

/-- Settles O14: XOR has its effect, and its result byte is the not-equal predicate (`aluXor_eq_ite`). -/
theorem xorWritesTheNotEqualPredicate : Obligations.XorWritesTheNotEqualPredicate := by
  refine fun d r s => ⟨rfl, fun hd hr hp => ?_, exec_alu_of_unreadable (by simp)⟩
  have hresult : BitVec.ofNat 8 (aluXor (s.reg ⟨d.toNat, hd⟩) (s.reg ⟨r.toNat, hr⟩)) =
      if s.reg ⟨d.toNat, hd⟩ = s.reg ⟨r.toNat, hr⟩ then 0#8 else 1#8 := by
    rw [aluXor_eq_ite, apply_ite (BitVec.ofNat 8)]
  rw [exec_of_effect (i := .xor d r) ⟨hd, hr, hp, rfl⟩, hresult]
  rfl

/-- Settles O24, one law of R157 after the other; those of XOR follow from `aluXor_eq_ite`. -/
theorem aluLawsHold : Obligations.AluLawsHold := fun a b =>
  ⟨aluAdd_comm a b, aluAdd_zero a, aluAdd_lt a b, aluMul_comm a b, aluMul_one a, rfl, aluMul_lt a b,
    aluCompare_eq_flEqual_iff a b, aluCompare_eq_flGreater_iff a b, aluCompare_eq_flLess_iff a b,
    by simp [aluXor_eq_ite], by simp [aluXor_eq_ite], rfl, rfl⟩

/-- Settles O25: an instruction keeps the halt cause, ends by HLT, or takes OutOfBounds (O36). -/
theorem noInstructionIsUnsupported : Obligations.NoInstructionIsUnsupported := by
  refine ⟨alu_eq_error_iff, fun i s t h hc => ?_, rfl⟩
  obtain ⟨-, hkeep⟩ | ⟨-, -, hhlt⟩ | rfl := aFaultCommitsNothing i s t h
  · exact hkeep ▸ hc
  · exact nomatch hhlt.symm.trans hc
  · exact nomatch hc

/-- Settles O15: the handler of a reserved no-op reads nothing, so only the advance is left. -/
theorem reservedNoOpsOnlyAdvance : Obligations.ReservedNoOpsOnlyAdvance := by
  intro d r s
  have three (h : HandlerId) (hh : h ∈ [.and, .or, .shl, .shr, .mod]) :
      exec (h.instr d r) s = .next { s with pc := s.pc + 3 } := exec_reserved_of_three_bytes hh d r s
  exact ⟨⟨rfl, three .and (by decide)⟩, ⟨rfl, three .or (by decide)⟩, ⟨rfl, exec_not d s⟩,
    ⟨rfl, three .shl (by decide)⟩, ⟨rfl, three .shr (by decide)⟩, ⟨rfl, three .mod (by decide)⟩⟩

/-- Settles O23: the ALU's four operations are its functions, and XOR's result tests equality (`aluXor_eq_ite`). -/
theorem aluComputesItsFourOperations : Obligations.AluComputesItsFourOperations := by
  intro a b
  have hxor : aluXor a b = if a.toNat = b.toNat then 0 else 1 := by
    rw [aluXor_eq_ite]
    simp only [BitVec.toNat_inj]
  exact ⟨rfl, rfl, rfl, by rw [← hxor]; rfl⟩

end Sys2Proof.Machine
end

section
/-! PROOFS. 43_stack: SP arithmetic never wraps, what PUSH and POP leave and where they fault, and that pops in reverse
order undo pushes (R171 to R175). -/

namespace Sys2Proof.Machine

/-! ### SP arithmetic -/

theorem State.regs_setReg_seven (s : State) (v : Byte) : (s.setReg 7 v).regs[7] = v :=
  Vector.getElem_set_self _

/-- Settles O26: where `spDec` and `spInc` answer a state, it is a write of R7. -/
theorem stackPointerArithmeticNeverWraps : Obligations.StackPointerArithmeticNeverWraps := by
  intro s
  refine ⟨spDec_of_zero s, fun h => ⟨_, spDec_of_pos s h, ?_⟩, spInc_of_top s, fun h => ⟨_, spInc_of_lt s h, ?_⟩⟩
  · rw [State.regs_setReg_seven, toNat_sp_sub_one]
    exact ⟨Nat.sub_add_cancel h, rfl⟩
  · rw [State.regs_setReg_seven]
    exact ⟨Nat.mod_eq_of_lt (Nat.add_lt_add_right h 1), rfl⟩

/-! ### PUSH and POP -/

/-- The operand byte names SP exactly when it is 7 (R22, R23). -/
theorem byte_index_eq_seven_iff {d : Byte} (hd : d.toNat < 8) : (⟨d.toNat, hd⟩ : Fin 8) = 7 ↔ d = 7 := by
  rw [Fin.ext_iff, ← BitVec.toNat_inj]
  rfl

/-- The register an operand byte names, once SP is written: PUSH R7 reads the new SP (R173). -/
theorem State.reg_setReg_seven {d : Byte} (hd : d.toNat < 8) (s : State) (v : Byte) :
    (s.setReg 7 v).reg ⟨d.toNat, hd⟩ = if d = 7 then v else s.reg ⟨d.toNat, hd⟩ := by
  simp only [State.reg_setReg, eq_comm (a := (7 : Fin 8)), byte_index_eq_seven_iff]

/-- SP once the register an operand byte names is written: POP R7 increments the popped byte (R174). -/
theorem State.sp_setReg {d : Byte} (hd : d.toNat < 8) (s : State) (v : Byte) :
    (s.setReg ⟨d.toNat, hd⟩ v).sp = if d = 7 then v else s.sp := by
  simp only [State.sp, State.reg_setReg, byte_index_eq_seven_iff]

theorem State.setReg_setReg (s : State) (r : Fin 8) (v w : Byte) : (s.setReg r v).setReg r w = s.setReg r w := by
  simp only [State.setReg, Vector.set_set]

/-- Settles O16: PUSH has its effect just where the operand is readable, SP is not 0 and op1 names a register. -/
theorem pushStoresBelowTheStackPointer : Obligations.PushStoresBelowTheStackPointer := by
  intro d s
  refine ⟨rfl, fun hd hp hs => ?_, fun hbad => exec_of_no_effect ?_⟩
  · rw [exec_of_effect (i := .push d) ⟨hd, hp, hs, rfl⟩, State.reg_setReg_seven]
    rfl
  · rintro t ⟨hd, hp, hs, -⟩
    change 0 < s.regs[7].toNat at hs
    omega

/-- Settles O17: POP has its effect just where the operand is readable, op1 names a register and the SP to increment,
which is the popped byte for R7, is not 255. -/
theorem popLoadsFromTheStackPointer : Obligations.PopLoadsFromTheStackPointer := by
  intro d s
  refine ⟨rfl, fun hd hne hp hs => ?_, ?_, fun hbad => exec_of_no_effect ?_⟩
  · have hsp (v : Byte) : (s.setReg ⟨d.toNat, hd⟩ v).sp = s.sp := by rw [State.sp_setReg, if_neg hne]
    rw [exec_of_effect (i := .pop d) ⟨hd, hp, by rw [hsp]; exact hs, rfl⟩, hsp]
    rfl
  · rintro rfl hp hs
    rw [exec_of_effect (i := .pop 7) ⟨by decide, hp, by rw [State.sp_setReg, if_pos rfl]; exact hs, rfl⟩,
      State.sp_setReg, if_pos rfl]
    exact congrArg (fun t => Host.Outcome.next (State.advance t 2)) (State.setReg_setReg s 7 _ _)
  · rintro t ⟨hd, hp, hs, -⟩
    rw [State.sp_setReg] at hs
    obtain hbad | hbad | ⟨h7, hbad⟩ | ⟨h7, hbad⟩ := hbad
    · exact absurd hp (Nat.not_lt.2 hbad)
    · exact absurd hd (Nat.not_lt.2 hbad)
    · rw [if_neg h7] at hs
      exact hs.ne hbad
    · rw [if_pos h7] at hs
      exact hs.ne hbad

/-! ### Pushes and pops in sequence -/

/-- What a PUSH leaves that stores `v` (R173). -/
def State.pushed (s : State) (v : Byte) : State :=
  { s with regs := s.regs.set 7 (s.regs[7] - 1), mem := s.mem.write (s.regs[7].toNat - 1) v, pc := s.pc + 2 }

/-- The operand byte of a register below R7 is not SP's. -/
theorem byte_ne_seven_of_lt {d : Byte} (hd : d.toNat < 7) : d ≠ 7 := by
  rintro rfl
  exact absurd hd (by decide)

/-- A PUSH of a register below R7 stores it as it was (R173). -/
theorem exec_push_of_lt_seven {d : Byte} {s : State} (hd : d.toNat < 7) (hp : s.pc.toNat + 1 < 256)
    (hs : 0 < s.sp.toNat) : exec (.push d) s = .next (s.pushed s.regs[d.toNat]) := by
  obtain ⟨-, hpush, -⟩ := pushStoresBelowTheStackPointer d s
  rw [hpush (by omega) hp hs, if_neg (byte_ne_seven_of_lt hd)]
  rfl

theorem State.sp_pushed (s : State) (v : Byte) : (s.pushed v).sp = s.sp - 1 :=
  Vector.getElem_set_self _

theorem State.toNat_sp_pushed {s : State} (hs : 0 < s.sp.toNat) (v : Byte) :
    (s.pushed v).sp.toNat = s.sp.toNat - 1 := by
  rw [State.sp_pushed, ← ofNat_sp_sub_one _ hs, toNat_sp_sub_one]

theorem State.toNat_pc_pushed {s : State} (hp : s.pc.toNat < 256) (v : Byte) :
    (s.pushed v).pc.toNat = s.pc.toNat + 2 :=
  State.toNat_advance_pc (n := 2) hp (by decide)

theorem State.read_mem_pushed (s : State) (v : Byte) (a : Nat) :
    (s.pushed v).mem.read a = if a = s.sp.toNat - 1 then v else s.mem.read a :=
  Memory.read_write _ _ _ _

/-- A POP of `d` undoes what a PUSH of `d` in `s` did to the registers, in any state that holds the registers as that
PUSH left them and, at SP, the byte that it stored. -/
theorem exec_pop_restores_regs {d : Byte} {s t : State} {v : Byte} (hd : d.toNat < 7) (hs : 0 < s.sp.toNat)
    (hp : t.pc.toNat + 1 < 256) (hregs : t.regs = (s.pushed v).regs)
    (hmem : t.mem.read (s.sp.toNat - 1) = s.regs[d.toNat]) :
    exec (.pop d) t = .next { t with regs := s.regs, pc := t.pc + 2 } := by
  have hsp : t.regs[7] = s.sp - 1 := by rw [hregs]; exact State.sp_pushed s v
  have hspNat : t.regs[7].toNat = s.sp.toNat - 1 := by rw [hregs]; exact State.toNat_sp_pushed hs v
  have hrestored : (t.regs.set d.toNat s.regs[d.toNat]).set 7 s.sp = s.regs := by
    rw [hregs]
    ext i hi
    grind [State.pushed, State.sp, State.reg]
  obtain ⟨-, hpop, -⟩ := popLoadsFromTheStackPointer d t
  have := s.sp.isLt
  rw [hpop (by omega) (byte_ne_seven_of_lt hd) hp (by omega), hspNat, hmem, hsp, BitVec.sub_add_cancel, hrestored]

theorem execAll_cons_of_next {i : Instr} {s t : State} (h : exec i s = .next t) (is : List Instr) :
    execAll (i :: is) s = execAll is t := by
  rw [execAll, h]

theorem execAll_append_of_next {is : List Instr} {s t : State} (h : execAll is s = .next t) (js : List Instr) :
    execAll (is ++ js) s = execAll js t := by
  induction is generalizing s with
  | nil => cases h; rfl
  | cons i is ih =>
    obtain ⟨u, hu⟩ := exec_next i s
    rw [execAll_cons_of_next hu] at h
    rw [List.cons_append, execAll_cons_of_next hu, ih h]

/-- Settles O48, by induction on the list: the pairs are nested. The inner pushes and pops run between the PUSH and the
POP of the first register; they restore the registers as the PUSH left them, and keep the byte it stored, since it lies
at the SP they start from. -/
theorem pushesThenPopsRestoreTheRegisters : Obligations.PushesThenPopsRestoreTheRegisters := by
  intro ds
  induction ds with
  | nil => exact fun s _ _ _ => ⟨s, rfl, rfl, rfl, rfl, rfl, rfl, rfl, fun _ _ => rfl⟩
  | cons d ds ih =>
    intro s hds hroom hpc
    simp only [List.length_cons] at hroom hpc ⊢
    have hd : d.toNat < 7 := hds d List.mem_cons_self
    have hs : 0 < s.sp.toNat := by omega
    have hpush := exec_push_of_lt_seven hd (by omega) hs
    have hsp := State.toNat_sp_pushed hs s.regs[d.toNat]
    have hpushpc := State.toNat_pc_pushed (s := s) (by omega) s.regs[d.toNat]
    obtain ⟨t, hrun, hregs, hfl, htpc, hrunning, hcause, hout, hmem⟩ :=
      ih (s.pushed s.regs[d.toNat]) (fun e he => hds e (List.mem_cons_of_mem d he)) (by omega) (by omega)
    have hstored : t.mem.read (s.sp.toNat - 1) = s.regs[d.toNat] := by
      rw [hmem _ (.inr hsp.le), State.read_mem_pushed, if_pos rfl]
    have hpop := exec_pop_restores_regs hd hs (by omega) hregs hstored
    refine ⟨{ t with regs := s.regs, pc := t.pc + 2 }, ?_, rfl, hfl, ?_, hrunning, hcause, hout, fun a ha => ?_⟩
    · rw [List.map_cons, List.cons_append, execAll_cons_of_next hpush, List.reverse_cons, List.map_append,
        ← List.append_assoc, execAll_append_of_next hrun]
      exact execAll_cons_of_next hpop []
    · have hadvance := State.toNat_advance_pc (s := t) (n := 2) (by omega) (by decide)
      exact hadvance.trans (by omega)
    · rw [hmem a (by omega), State.read_mem_pushed, if_neg (by omega)]

end Sys2Proof.Machine
end

section
/-! PROOFS. 44_control_transfer: what CALL, RET, JMP, JEQ and JNE leave and where they fault, that RET undoes CALL, and
where a branch after CMP goes (R190 to R197). -/

namespace Sys2Proof.Machine

/-! ### JMP, JEQ and JNE -/

/-- Settles O20: JMP has its effect just where op1 is readable and names a register. -/
theorem jmpGoesToTheRegister : Obligations.JmpGoesToTheRegister := by
  intro d s
  refine ⟨rfl, fun hd hp => exec_of_effect (i := .jmp d) ⟨hd, hp, rfl⟩, fun hbad => exec_of_no_effect ?_⟩
  rintro t ⟨hd, hp, -⟩
  omega

/-- JEQ through a readable operand: a jump or an advance, by Flags alone (R193). -/
theorem exec_jeq_of_readable {d : Byte} {s : State} (hd : d.toNat < 8) (hp : s.pc.toNat + 1 < 256) :
    exec (.jeq d) s = .next (if s.fl = flEqual then s.jump (s.reg ⟨d.toNat, hd⟩) else s.advance 2) := by
  split
  · next heq => exact exec_of_effect (i := .jeq d) (.inl ⟨heq, hd, hp, rfl⟩)
  · next hne => exact exec_jeq_of_ne hne d

/-- JNE through a readable operand: an advance or a jump, by Flags alone (R194). -/
theorem exec_jne_of_readable {d : Byte} {s : State} (hd : d.toNat < 8) (hp : s.pc.toNat + 1 < 256) :
    exec (.jne d) s = .next (if s.fl = flEqual then s.advance 2 else s.jump (s.reg ⟨d.toNat, hd⟩)) := by
  split
  · next heq => exact exec_jne_of_eq heq d
  · next hne => exact exec_of_effect (i := .jne d) (.inl ⟨hne, hd, hp, rfl⟩)

/-- Settles O21: with FL = EQUAL, JEQ has an effect just where JMP has one; without, it reads nothing. -/
theorem jeqJumpsWhenEqual : Obligations.JeqJumpsWhenEqual := by
  intro d s
  refine ⟨rfl, fun hd hfl hp => ?_, fun hfl => exec_jeq_of_ne hfl d, fun hfl hbad => exec_of_no_effect ?_⟩
  · exact (exec_jeq_of_readable hd hp).trans (congrArg _ (if_pos hfl))
  · rintro t (⟨-, hd, hp, -⟩ | ⟨hne, -⟩)
    · omega
    · exact hne hfl

/-- Settles O22: with FL other than EQUAL, JNE has an effect just where JMP has one; with it, it reads nothing. -/
theorem jneJumpsWhenNotEqual : Obligations.JneJumpsWhenNotEqual := by
  intro d s
  refine ⟨rfl, fun hd hfl hp => ?_, fun hfl => exec_jne_of_eq hfl d, fun hfl hbad => exec_of_no_effect ?_⟩
  · exact (exec_jne_of_readable hd hp).trans (congrArg _ (if_neg hfl))
  · rintro t (⟨-, hd, hp, -⟩ | ⟨heq, -⟩)
    · omega
    · exact hfl heq

/-! ### A branch after CMP -/

/-- A jump sets pc to the target byte's value (R195). -/
theorem State.toNat_jump_pc_eq (s : State) (v : Byte) : (s.jump v).pc.toNat = v.toNat :=
  BitVec.toNat_setWidth_of_le (by decide)

/-- What a CMP of two registers leaves: the comparison in Flags, and pc past its three bytes (R148). -/
theorem exec_cmp_of_readable {a b : Byte} {s : State} (ha : a.toNat < 8) (hb : b.toNat < 8)
    (hp : s.pc.toNat + 2 < 256) :
    exec (.cmp a b) s =
      .next ((s.setFlags (aluCompare (s.reg ⟨a.toNat, ha⟩) (s.reg ⟨b.toNat, hb⟩))).advance 3) :=
  exec_of_effect (i := .cmp a b) ⟨ha, hb, hp, rfl⟩

/-- Settles O50: CMP leaves EQUAL in Flags exactly when the values are equal (`aluCompare_eq_flEqual_iff`), and each
branch goes by Flags from a pc 3 past CMP's. -/
theorem compareThenBranch : Obligations.CompareThenBranch := by
  intro a b r s ha hb hr hp
  have hcmp := exec_cmp_of_readable ha hb (s := s) (by omega)
  set c := (s.setFlags (aluCompare (s.reg ⟨a.toNat, ha⟩) (s.reg ⟨b.toNat, hb⟩))).advance 3
  have hfl : c.fl = flEqual ↔ s.regs[a.toNat] = s.regs[b.toNat] := aluCompare_eq_flEqual_iff _ _
  have hpc : c.pc.toNat = s.pc.toNat + 3 := State.toNat_advance_pc (s := s) (by omega) (by decide)
  have htaken : (c.jump (c.reg ⟨r.toNat, hr⟩)).pc.toNat = s.regs[r.toNat].toNat := State.toNat_jump_pc_eq c _
  have huntaken : (c.advance 2).pc.toNat = s.pc.toNat + 5 := by
    rw [State.toNat_advance_pc (by omega) (by decide), hpc]
  have hjeq := exec_jeq_of_readable hr (s := c) (by omega)
  have hjne := exec_jne_of_readable hr (s := c) (by omega)
  refine ⟨_, _, (execAll_cons_of_next hcmp _).trans (execAll_cons_of_next hjeq []),
    (execAll_cons_of_next hcmp _).trans (execAll_cons_of_next hjne []), fun heq => ?_, fun hne => ?_⟩
  · rw [if_pos (hfl.2 heq), if_pos (hfl.2 heq)]
    exact ⟨htaken, huntaken⟩
  · rw [if_neg (mt hfl.1 hne), if_neg (mt hfl.1 hne)]
    exact ⟨htaken, huntaken⟩

/-! ### CALL and RET -/

/-- Settles O18: CALL has its effect just where the operand is readable, SP is not 0 and op1 names a register; CALL R7
reads the decremented SP (`State.reg_setReg_seven`). -/
theorem callPushesTheReturnAddress : Obligations.CallPushesTheReturnAddress := by
  intro d s
  refine ⟨rfl, fun hd hp hs => ?_, fun hbad => exec_of_no_effect ?_⟩
  · rw [exec_of_effect (i := .call d) ⟨hd, hp, hs, rfl⟩, State.reg_setReg_seven, byte_ofNat_mod]
    rfl
  · rintro t ⟨hd, hp, hs, -⟩
    change 0 < s.regs[7].toNat at hs
    omega

/-- RET jumps to the byte at SP and moves SP up by one (R191). -/
theorem exec_ret_of_lt {s : State} (hs : s.sp.toNat < 255) :
    exec .ret s = .next ((s.setReg 7 (s.sp + 1)).jump (s.mem.read s.sp.toNat)) :=
  exec_of_effect (i := .ret) ⟨hs, rfl⟩

/-- Settles O19: RET has its effect just where SP is not 255. -/
theorem retPopsThePc : Obligations.RetPopsThePc := by
  intro s
  refine ⟨rfl, fun hs => exec_ret_of_lt hs, fun htop => exec_of_no_effect ?_⟩
  rintro t ⟨hs, -⟩
  exact hs.ne htop

/-- A CALL through a register below R7 pushes the return address as a PUSH would, and jumps to the register's value as
it was (R190). -/
theorem exec_call_of_lt_seven {d : Byte} {s : State} (hd : d.toNat < 7) (hp : s.pc.toNat + 1 < 256)
    (hs : 0 < s.sp.toNat) :
    exec (.call d) s =
      .next ((s.pushed (BitVec.ofNat 8 ((s.pc.toNat + 2) % 256))).jump s.regs[d.toNat]) := by
  obtain ⟨-, hcall, -⟩ := callPushesTheReturnAddress d s
  rw [hcall (by omega) hp hs, if_neg (byte_ne_seven_of_lt hd)]
  rfl

/-- Settles O49: RET pops the return address that CALL pushed, which is pc + 2 itself since pc is at most 253, and its
increment of SP undoes CALL's decrement. -/
theorem callThenRetComesBack : Obligations.CallThenRetComesBack := by
  intro d s hd hp hs
  set ret : Byte := BitVec.ofNat 8 ((s.pc.toNat + 2) % 256) with hret
  refine ⟨(s.pushed ret).jump s.regs[d.toNat], exec_call_of_lt_seven hd (by omega) hs, rfl, fun u hsp hmem => ?_⟩
  rw [State.sp_jump] at hsp hmem
  have hspNat : u.sp.toNat = s.sp.toNat - 1 := by rw [hsp, State.toNat_sp_pushed hs]
  have hpopped : u.mem.read u.sp.toNat = ret := by
    rw [hmem, State.jump_mem, State.read_mem_pushed, if_pos (State.toNat_sp_pushed hs ret)]
  have hretNat : ret.toNat = s.pc.toNat + 2 := by
    rw [hret, BitVec.toNat_ofNat]
    omega
  have hroom : u.sp.toNat < 255 := by
    have := s.sp.isLt
    omega
  refine ⟨_, exec_ret_of_lt hroom, ?_, ?_, rfl⟩
  · rw [State.toNat_jump_pc_eq, hpopped, hretNat]
  · rw [State.sp_jump, State.sp_setReg_seven, hsp, State.sp_pushed, BitVec.sub_add_cancel]

end Sys2Proof.Machine
end

section
/-! PROOFS. 60_exceptions: ordinary instructions raise no fault, the host's actions keep the invariant, and what an
abort, the clock edge and the output pins do (R223, R228, R235, R237 to R239, R260, R263). -/

namespace Sys2Proof.Machine

/-! ### Ordinary instructions -/

theorem validRegIndex_iff (i : Byte) : validRegIndex i = true ↔ i.toNat < 8 := decide_eq_true_iff

/-- A well-formed instruction whose bytes lie in memory, with SP away from both ends and a byte at SP that POP R7 can
increment, meets the conditions of its effect (R223). -/
theorem Effect.exists_of_wellFormed {i : Instr} {s : State} (hi : i.wellFormed = true)
    (hpc : s.pc.toNat + (encode i).length ≤ 256) (hpos : 0 < s.sp.toNat) (htop : s.sp.toNat < 255)
    (hbyte : (s.mem.read s.sp.toNat).toNat < 255) : ∃ t, Effect s t i := by
  cases i
  case hlt | not | and | or | shl | shr | mod => exact ⟨_, rfl⟩
  case ret => exact ⟨_, htop, rfl⟩
  case push | call => exact ⟨_, (validRegIndex_iff _).1 hi, hpc, hpos, rfl⟩
  case pop d =>
    have hd : d.toNat < 8 := (validRegIndex_iff d).1 hi
    have hsp : (s.setReg ⟨d.toNat, hd⟩ (s.mem.read s.sp.toNat)).sp.toNat < 255 := by
      rw [State.sp_setReg]
      split
      · exact hbyte
      · exact htop
    exact ⟨_, hd, hpc, hsp, rfl⟩
  case prn | jmp | ldi => exact ⟨_, (validRegIndex_iff _).1 hi, hpc, rfl⟩
  case jeq d =>
    by_cases hfl : s.fl = flEqual
    · exact ⟨_, .inl ⟨hfl, (validRegIndex_iff d).1 hi, hpc, rfl⟩⟩
    · exact ⟨_, .inr ⟨hfl, rfl⟩⟩
  case jne d =>
    by_cases hfl : s.fl = flEqual
    · exact ⟨_, .inr ⟨hfl, rfl⟩⟩
    · exact ⟨_, .inl ⟨hfl, (validRegIndex_iff d).1 hi, hpc, rfl⟩⟩
  case add d r | mul d r | xor d r | cmp d r =>
    obtain ⟨hd, hr⟩ : validRegIndex d = true ∧ validRegIndex r = true := Bool.and_eq_true_iff.1 hi
    exact ⟨_, (validRegIndex_iff d).1 hd, (validRegIndex_iff r).1 hr, hpc, rfl⟩

/-- An effect leaves a running machine running, or is HLT's, which is no fault (R122, R220). -/
theorem Effect.not_faulted {i : Instr} {s t : State} (e : Effect s t i) (hr : s.running = true) : ¬ t.faulted := by
  rintro ⟨hstopped, hcause⟩
  by_cases hi : i = .hlt
  · subst hi
    obtain rfl : t = s.halt .hlt := e
    simp at hcause
  · obtain ⟨hrunning, -⟩ := e.running_haltCause hi
    rw [hrunning, hr] at hstopped
    cases hstopped

/-- Settles O39: the instruction has its effect, which is no fault, and the advance touches only pc. -/
theorem ordinaryInstructionsDoNotFault : Obligations.OrdinaryInstructionsDoNotFault := by
  intro i s hi hpc hpos htop hbyte hr _
  obtain ⟨t, e⟩ := Effect.exists_of_wellFormed hi hpc hpos htop hbyte
  refine ⟨_, exec_of_effect e, ?_⟩
  obtain ⟨hrunning, hcause⟩ :=
    t.running_haltCause_ite_advance i.handler.row.controlsPc (i.handler.row.operandCount.toNat + 1)
  rw [State.faulted, hrunning, hcause]
  exact e.not_faulted hr

/-! ### The host's actions between steps -/

theorem hostAbort_of_running {s : State} (hr : s.running = true) : hostAbort s = s.halt .aborted := if_pos hr

theorem hostAbort_of_not_running {s : State} (hr : s.running = false) : hostAbort s = s :=
  if_neg (ne_true_of_eq_false hr)

/-- After an abort the machine is halted, whatever it was before (R228). -/
@[simp] theorem hostAbort_running (s : State) : (hostAbort s).running = false := by
  cases hr : s.running
  case false => rw [hostAbort_of_not_running hr, hr]
  case true => rw [hostAbort_of_running hr, State.halt_running]

theorem running_ite_hostAbort (s : State) (abort : Bool) :
    (if abort then hostAbort s else s).running = (!abort && s.running) := by
  cases abort
  case false => rfl
  case true => exact hostAbort_running s

/-- Settles O51, from the two cases of `hostAbort`. -/
theorem anAbortStopsARunningMachine : Obligations.AnAbortStopsARunningMachine :=
  fun _ => ⟨hostAbort_of_running, hostAbort_of_not_running⟩

/-- The invariant asks of memory only its canonical form. -/
theorem State.Inv.withMem {s : State} (hs : s.Inv) {m : Memory} (hm : m.wf) : State.Inv { s with mem := m } where
  memCanonical := hm
  flagsLegal := hs.flagsLegal
  pcReachable := hs.pcReachable
  causeNoneIffRunning := hs.causeNoneIffRunning
  invalidAtZero := hs.invalidAtZero
  neverUnsupported := hs.neverUnsupported

theorem State.Inv.hostAbort {s : State} (hs : s.Inv) : (hostAbort s).Inv := by
  cases hr : s.running
  case false => rw [hostAbort_of_not_running hr]; exact hs
  case true =>
    rw [hostAbort_of_running hr]
    exact ⟨hs.memCanonical, hs.flagsLegal, hs.pcReachable, by simp, by simp, by simp⟩

/-- An image is loaded only if it fits, and then only memory is written (R263, R265). -/
theorem loadImage_eq_next {image : List Byte} {s t : State} (h : loadImage image s = .next t) :
    image.length ≤ 256 ∧ t = { s with mem := s.mem.store 0 image } := by
  unfold loadImage at h
  split at h
  · next hfits => cases h; exact ⟨of_decide_eq_true hfits, rfl⟩
  · cases h

/-- Settles O54: reset is a launch over the memory it keeps, a host write and a load write addresses below 256, and an
abort sets `running` and `halt_cause` together. -/
theorem hostActionsKeepTheInvariant : Obligations.HostActionsKeepTheInvariant := by
  intro s L addr v image hs
  refine ⟨State.inv_launch L hs.memCanonical, hs.withMem (Memory.wf_write hs.memCanonical addr.isLt v),
    hs.hostAbort, fun t h => ?_⟩
  obtain ⟨hfits, rfl⟩ := loadImage_eq_next h
  exact hs.withMem (Memory.wf_store hs.memCanonical image 0 (by omega))

/-! ### The pins -/

theorem Clocked.busy_iff (c : Clocked) : c.busy = true ↔ c.phase ≠ .idle := bne_iff_ne

/-- The sequencer goes to FETCH for a step, and is idle without one. -/
theorem ite_fetch_ne_idle_iff (start : Bool) :
    (if start then Phase.fetch else .idle) ≠ .idle ↔ start = true := by
  cases start <;> decide

/-- Settles O56: without reset an edge in a step's cycle looks at `run` and `abort` only. -/
theorem hostWritesAreIgnoredWhileBusy : Obligations.HostWritesAreIgnoredWhileBusy := by
  intro L p c we st addr data hrst hbusy
  have hrst : ¬ p.rst = true := ne_true_of_eq_false hrst
  have hphase : ¬ c.phase = .idle := c.busy_iff.1 hbusy
  rw [clockEdge, clockEdge, if_neg hrst, if_neg hrst, if_neg hphase, if_neg hphase]

/-- Settles O57: the edge takes its idle branch, and what decides over a step besides the request is whether the machine
is running after the host's write, which leaves `running`, and the abort, which clears it. -/
theorem aRequestStartsAStepOnlyWhileRunning : Obligations.ARequestStartsAStepOnlyWhileRunning := by
  intro L p c hrst hidle written
  have hrst : ¬ p.rst = true := ne_true_of_eq_false hrst
  have hwritten : written.running = c.core.running := by
    simp only [written]
    split <;> rfl
  have hrunning : (if p.abort || c.abortPending then hostAbort written else written).running = true ↔
      p.abort = false ∧ c.abortPending = false ∧ c.core.running = true := by
    rw [running_ite_hostAbort, hwritten]
    simp [and_assoc]
  refine ⟨_, by rw [clockEdge, if_neg hrst, if_pos hidle], rfl, rfl, ?_⟩
  calc
    _ ↔ ((p.run || p.step) && (if p.abort || c.abortPending then hostAbort written else written).running) = true :=
      (Clocked.busy_iff _).trans (ite_fetch_ne_idle_iff _)
    _ ↔ _ := by rw [Bool.and_eq_true, Bool.or_eq_true, hrunning]

/-- Settles O58: each pin is the field it shows; `host_rdata` and the two pins of PRN by the case they are limited
to. -/
theorem theInspectionPinsShowTheState : Obligations.TheInspectionPinsShowTheState := by
  intro p c
  refine ⟨rfl, rfl, rfl, rfl, rfl, rfl, fun hbusy => ?_, fun hnone => ?_, fun v hv => ?_⟩
  · exact if_neg (ne_true_of_eq_false hbusy)
  · exact congrArg Option.isSome hnone
  · exact ⟨congrArg Option.isSome hv, congrArg (Option.getD · _) hv⟩

end Sys2Proof.Machine
end

section
/-! PROOFS. 70_reset_and_hazards: the loader's contract, reset at the pins, the cycles of a step, and that the
micro-sequence refines the step (R104, R228, R238, R260, R263 to R265, R270). -/

namespace Sys2Proof.Machine

/-! ### The loader -/

theorem loadImage_of_length_le {image : List Byte} (h : image.length ≤ 256) (s : State) :
    loadImage image s = .next { s with mem := s.mem.store 0 image } :=
  if_pos (decide_eq_true h)

theorem loadImage_of_length_gt {image : List Byte} (h : 256 < image.length) (s : State) :
    loadImage image s = .refused (.imageTooLong image.length) :=
  if_neg (mt of_decide_eq_true h.not_ge)

/-- Settles O52: an image that fits is stored from address 0, and `Memory.read_store` says what is read after that. -/
theorem theLoaderWritesTheImage : Obligations.TheLoaderWritesTheImage := by
  intro image s
  refine ⟨fun hfits => ⟨_, loadImage_of_length_le hfits s, rfl, fun k b hk => ?_, fun a ha => ?_, fun hm => ?_⟩,
    fun hlong => loadImage_of_length_gt hlong s⟩
  · obtain ⟨hlt, rfl⟩ := List.getElem?_eq_some_iff.1 hk
    rw [Memory.read_store, dif_pos ⟨k.zero_le, hlt⟩]
    rfl
  · rw [Memory.read_store, dif_neg fun h => h.2.not_ge ha]
  · exact Memory.wf_store hm image 0 (by omega)

theorem imageOfLines_append (before after : List ImageLine) :
    imageOfLines (before ++ after) = imageOfLines before ++ imageOfLines after :=
  List.filterMap_append

/-- A line that writes no byte takes no load address (R263, D16). -/
theorem imageOfLines_insert_of_none {l : ImageLine} (h : l.byte? = none) (before after : List ImageLine) :
    imageOfLines (before ++ l :: after) = imageOfLines (before ++ after) := by
  rw [imageOfLines_append, imageOfLines_append, imageOfLines, imageOfLines, List.filterMap_cons_none h]
  rfl

/-- A line that writes a byte takes one load address (R263). -/
theorem imageOfLines_insert_of_some {l : ImageLine} {b : Byte} (h : l.byte? = some b)
    (before after : List ImageLine) :
    imageOfLines (before ++ l :: after) = imageOfLines before ++ b :: imageOfLines after := by
  rw [imageOfLines_append, imageOfLines, imageOfLines, List.filterMap_cons_some h]
  rfl

/-- Settles O53: of the four kinds of line only a literal up to 255 writes a byte (R265). -/
theorem onlyWellFormedLinesTakeAnAddress : Obligations.OnlyWellFormedLinesTakeAnAddress :=
  fun before after v =>
    ⟨imageOfLines_insert_of_none rfl before after, imageOfLines_insert_of_none rfl before after,
      fun hbig => imageOfLines_insert_of_none (l := .literal v) (if_neg hbig.not_ge) before after,
      fun hbyte => imageOfLines_insert_of_some (l := .literal v) (if_pos hbyte) before after,
      rfl, rfl, decide_eq_true_iff⟩

/-! ### Reset -/

/-- Settles O55: at an edge `rst` is looked at before anything else. -/
theorem resetAbandonsAStepInProgress : Obligations.ResetAbandonsAStepInProgress :=
  fun _ _ _ hrst => ⟨_, if_pos hrst, rfl, rfl, rfl, rfl⟩

/-! ### The operand bytes a handler reads -/

theorem State.flagsEqual_eq_false_iff (s : State) : s.flagsEqual = false ↔ s.fl ≠ flEqual := beq_eq_false_iff_ne

theorem readsOp1_of_readsOp2 {h : HandlerId} (h2 : readsOp2 h = true) (s : State) : readsOp1 h s = true := by
  cases h
  case ldi | add | mul | xor | cmp => rfl
  all_goals cases h2

/-- A handler reads op1 only where its instruction has one (R72, R104). -/
theorem one_le_operandCount_of_readsOp1 {h : HandlerId} {s : State} (h1 : readsOp1 h s = true) :
    1 ≤ h.row.operandCount.toNat := by
  cases h
  case hlt | ret => cases h1
  all_goals decide

/-- A handler reads op2 only where its instruction has two operands (R72, R104). -/
theorem two_le_operandCount_of_readsOp2 {h : HandlerId} (h2 : readsOp2 h = true) :
    2 ≤ h.row.operandCount.toNat := by
  cases h
  case ldi | add | mul | xor | cmp => decide
  all_goals cases h2

/-- The operand bytes a handler does not read make no difference to what it does (R104, D22). -/
theorem exec_instr_congr {h : HandlerId} {s : State} {b1 b2 c1 c2 : Byte} (h1 : readsOp1 h s = true → b1 = c1)
    (h2 : readsOp2 h = true → b2 = c2) : exec (h.instr b1 b2) s = exec (h.instr c1 c2) s := by
  cases h
  case hlt | ret | not | and | or | shl | shr | mod => rfl
  case push | pop | prn | call | jmp => obtain rfl := h1 rfl; rfl
  case ldi | add | mul | xor | cmp => obtain rfl := h1 rfl; obtain rfl := h2 rfl; rfl
  case jeq =>
    by_cases hfl : s.fl = flEqual
    · obtain rfl := h1 (s.flagsEqual_iff.2 hfl); rfl
    · exact (exec_jeq_of_ne hfl b1).trans (exec_jeq_of_ne hfl c1).symm
  case jne =>
    by_cases hfl : s.fl = flEqual
    · exact (exec_jne_of_eq hfl b1).trans (exec_jne_of_eq hfl c1).symm
    · obtain rfl := h1 (congrArg not (s.flagsEqual_eq_false_iff.2 hfl)); rfl

/-- A handler that reads op1 has an effect only where pc + 1 is an address (R104). -/
theorem Effect.pc_add_one_lt {h : HandlerId} {s t : State} {b1 b2 : Byte} (e : Effect s t (h.instr b1 b2))
    (h1 : readsOp1 h s = true) : s.pc.toNat + 1 < 256 := by
  cases h
  case hlt | ret | not | and | or | shl | shr | mod => cases h1
  case push | pop | call => obtain ⟨_, hp, _⟩ := e; exact hp
  case prn | jmp => obtain ⟨_, hp, _⟩ := e; exact hp
  case ldi => obtain ⟨_, hp, _⟩ := e; omega
  case add | mul | xor | cmp => obtain ⟨_, _, hp, _⟩ := e; omega
  case jeq =>
    obtain ⟨_, _, hp, _⟩ | ⟨hne, _⟩ := e
    · exact hp
    · exact absurd (s.flagsEqual_iff.1 h1) hne
  case jne =>
    obtain ⟨_, _, hp, _⟩ | ⟨heq, _⟩ := e
    · exact hp
    · simp [readsOp1, State.flagsEqual, heq] at h1

/-- A handler that reads op2 has an effect only where pc + 2 is an address (R104). -/
theorem Effect.pc_add_two_lt {h : HandlerId} {s t : State} {b1 b2 : Byte} (e : Effect s t (h.instr b1 b2))
    (h2 : readsOp2 h = true) : s.pc.toNat + 2 < 256 := by
  cases h
  case ldi => obtain ⟨_, hp, _⟩ := e; exact hp
  case add | mul | xor | cmp => obtain ⟨_, _, hp, _⟩ := e; exact hp
  all_goals cases h2

/-- A step from a byte address with a valid opcode runs the handler on the window's bytes, as far as it reads them. -/
theorem step_of_opcode_of_reads {h : HandlerId} {s : State} {b1 b2 : Byte} (hr : s.running = true)
    (hp : s.pc.toNat < 256) (hopc : s.mem.read s.pc.toNat = h.row.opcode)
    (h1 : readsOp1 h s = true → b1 = windowByte s (s.pc.toNat + 1))
    (h2 : readsOp2 h = true → b2 = windowByte s (s.pc.toNat + 2)) : step s = exec (h.instr b1 b2) s := by
  have hrom : dispatchRom (s.mem.read s.pc.toNat) = some h := (dispatchRom_eq_some_iff _ _).2 hopc.symm
  obtain ⟨hge, -⟩ | ⟨-, hnone, -⟩ | ⟨h', -, hrom', w1, w2, hf, hw1, hw2⟩ := fetchDecode_cases s
  · omega
  · rw [hrom] at hnone; cases hnone
  · obtain rfl : h = h' := Option.some.inj (hrom.symm.trans hrom')
    rw [step_of_fetchDecode_ok hr hf]
    exact exec_instr_congr (fun hr1 => (hw1 (one_le_operandCount_of_readsOp1 hr1)).trans (h1 hr1).symm)
      fun hr2 => (hw2 (two_le_operandCount_of_readsOp2 hr2)).trans (h2 hr2).symm

/-- Where a step's handler reads an operand past memory, the step takes OutOfBounds (R104, R221). -/
theorem step_of_unreadable_operand {h : HandlerId} {s : State} (hr : s.running = true) (hp : s.pc.toNat < 256)
    (hopc : s.mem.read s.pc.toNat = h.row.opcode)
    (hbad : readsOp1 h s = true ∧ 256 ≤ s.pc.toNat + 1 ∨ readsOp2 h = true ∧ 256 ≤ s.pc.toNat + 2) :
    step s = .next (s.takeFault .outOfBounds) := by
  rw [step_of_opcode_of_reads hr hp hopc (fun _ => rfl) fun _ => rfl]
  refine exec_of_no_effect fun t e => ?_
  obtain ⟨h1, hge⟩ | ⟨h2, hge⟩ := hbad
  · exact hge.not_gt (e.pc_add_one_lt h1)
  · exact hge.not_gt (e.pc_add_two_lt h2)

/-! ### The cycles of a step -/

theorem stepCycles_of_ge {s : State} (hp : 256 ≤ s.pc.toNat) : stepCycles s = 1 := by
  rw [stepCycles, memRead_of_ge s hp]

theorem stepCycles_of_invalid {s : State} (hp : s.pc.toNat < 256)
    (hrom : dispatchRom (s.mem.read s.pc.toNat) = none) : stepCycles s = 1 := by
  simp only [stepCycles, memRead_of_lt s hp, hrom]

section
variable {h : HandlerId} {s : State} (hp : s.pc.toNat < 256) (hopc : s.mem.read s.pc.toNat = h.row.opcode)
include hp hopc

/-- A handler that reads no operand takes FETCH and EXEC (R270). -/
theorem stepCycles_of_no_operand (h1 : readsOp1 h s = false) : stepCycles s = 2 := by
  simp [stepCycles, memRead_of_lt s hp, hopc, h1]

/-- A handler that reads op1 alone takes OP1 besides, in which the step ends where op1 is no address (R270). -/
theorem stepCycles_of_one_operand (h1 : readsOp1 h s = true) (h2 : readsOp2 h = false) :
    stepCycles s = if s.pc.toNat + 1 < 256 then 3 else 2 := by
  simp only [stepCycles, memRead_of_lt s hp, hopc, dispatchRom_opcode, h1, h2, Bool.not_true,
    Bool.not_false, Bool.false_eq_true, if_false, if_true]
  split_ifs <;> omega

/-- A handler that reads both operands takes OP1 and OP2 besides, and the step ends in the first whose operand is no
address (R270). -/
theorem stepCycles_of_two_operands (h2 : readsOp2 h = true) :
    stepCycles s = if s.pc.toNat + 2 < 256 then 4 else if s.pc.toNat + 1 < 256 then 3 else 2 := by
  simp only [stepCycles, memRead_of_lt s hp, hopc, dispatchRom_opcode, readsOp1_of_readsOp2 h2 s, h2,
    Bool.not_true, Bool.false_eq_true, if_false]
  split_ifs <;> omega

end

/-- An opcode in the list of some handlers' opcodes is that of a handler with what all of them have in common. -/
theorem exists_handler_of_mem_opcodes {hs : List HandlerId} {P : HandlerId → Prop} (hP : ∀ h ∈ hs, P h) {opc : Byte}
    (hopc : opc ∈ hs.map fun h => h.row.opcode) : ∃ h, opc = h.row.opcode ∧ P h := by
  obtain ⟨h, hh, hrow⟩ := List.mem_map.1 hopc
  exact ⟨h, hrow.symm, hP h hh⟩

/-- Settles O60: each list of opcodes is that of the handlers that read the same operands; JEQ and JNE read theirs just
where they are taken. -/
theorem cyclesPerInstruction : Obligations.CyclesPerInstruction := by
  intro s opc
  refine ⟨stepCycles_of_ge, fun hp => ⟨stepCycles_of_invalid hp, fun hmem => ?_, fun hjeq => ?_, fun hjne => ?_,
    fun hmem => ?_, fun hmem => ?_⟩⟩
  · have hnone : ∀ h ∈ [HandlerId.hlt, .ret, .not, .mod, .and, .or, .shl, .shr], readsOp1 h s = false := by
      simp [readsOp1]
    obtain ⟨h, hopc, h1⟩ := exists_handler_of_mem_opcodes hnone hmem
    exact stepCycles_of_no_operand hp hopc h1
  · by_cases hfl : s.fl = 1#3
    · simpa [hfl] using stepCycles_of_one_operand (h := .jeq) hp hjeq (s.flagsEqual_iff.2 hfl) rfl
    · simpa [hfl] using stepCycles_of_no_operand (h := .jeq) hp hjeq (s.flagsEqual_eq_false_iff.2 hfl)
  · by_cases hfl : s.fl = 1#3
    · simpa [hfl] using stepCycles_of_no_operand (h := .jne) hp hjne (congrArg not (s.flagsEqual_iff.2 hfl))
    · simpa [hfl] using stepCycles_of_one_operand (h := .jne) hp hjne
        (congrArg not (s.flagsEqual_eq_false_iff.2 hfl)) rfl
  · have hone : ∀ h ∈ [HandlerId.push, .pop, .prn, .call, .jmp], readsOp1 h s = true ∧ readsOp2 h = false := by
      simp [readsOp1, readsOp2]
    obtain ⟨h, hopc, h1, h2⟩ := exists_handler_of_mem_opcodes hone hmem
    exact stepCycles_of_one_operand hp hopc h1 h2
  · have htwo : ∀ h ∈ [HandlerId.ldi, .add, .mul, .xor, .cmp], readsOp2 h = true := by
      simp [readsOp2]
    obtain ⟨h, hopc, h2⟩ := exists_handler_of_mem_opcodes htwo hmem
    exact stepCycles_of_two_operands hp hopc h2

/-! ### The micro-sequence -/

/-- From phase `q` of a step that began in `s`, the sequencer ends the step in its `n`-th cycle with the state `t`, and
what that cycle puts out is what `t` has emitted beyond `s`. -/
inductive EndsIn (s t : State) : Phase → Nat → Prop where
  | done {q : Phase} {emitted : Option Byte} (hcycle : microCycle s q = .next (.done t emitted))
      (hout : t.output = s.output ++ emitted.toList) : EndsIn s t q 1
  | goto {q q' : Phase} {n : Nat} (hcycle : microCycle s q = .next (.goto q')) (hends : EndsIn s t q' n) :
      EndsIn s t q (n + 1)

/-- Between steps no step is ending. -/
theorem EndsIn.ne_idle {s t : State} {q : Phase} {n : Nat} (h : EndsIn s t q n) : q ≠ .idle := by
  induction h with
  | done hcycle _ => rintro rfl; cases hcycle
  | goto hcycle _ ih => rintro rfl; cases hcycle; exact ih rfl

/-- EXEC ends the step with what the instruction does (R270). -/
theorem EndsIn.exec {i : Instr} {s t : State} (h : exec i s = .next t) : EndsIn s t (.exec i) 1 := by
  refine .done (by rw [microCycle, h]) ?_
  obtain hsame | ⟨_, _, -, hemit⟩ := onlyPrnEmits i s t h
  · simp [hsame]
  · simp [hemit]

/-- A cycle that faults ends the step with the fault taken, and puts out nothing (R221, R270). -/
theorem EndsIn.fault {s : State} {q : Phase} {c : HaltCause}
    (h : microCycle s q = .next (.done (s.takeFault c) none)) : EndsIn s (s.takeFault c) q 1 := by
  obtain ⟨-, -, -, hout, -⟩ := s.takeFault_frame c
  exact .done h (by rw [hout, Option.toList_none, List.append_nil])

theorem microCycle_fetch_of_ge {s : State} (hp : 256 ≤ s.pc.toNat) :
    microCycle s .fetch = .next (.done (s.takeFault .outOfBounds) none) := by
  simp only [microCycle, fetchCycle, memRead_of_ge s hp]

theorem microCycle_fetch_of_invalid {s : State} (hp : s.pc.toNat < 256)
    (hrom : dispatchRom (s.mem.read s.pc.toNat) = none) :
    microCycle s .fetch = .next (.done (s.takeFault .invalidInstruction) none) := by
  simp only [microCycle, fetchCycle, memRead_of_lt s hp, hrom]

theorem microCycle_fetch_of_opcode {h : HandlerId} {s : State} (hp : s.pc.toNat < 256)
    (hopc : s.mem.read s.pc.toNat = h.row.opcode) :
    microCycle s .fetch = .next (.goto (if readsOp1 h s then .op1 h else .exec (h.instr 0 0))) := by
  simp only [microCycle, fetchCycle, memRead_of_lt s hp, hopc, dispatchRom_opcode]

theorem microCycle_op1_of_ge {s : State} (hp : 256 ≤ s.pc.toNat + 1) (h : HandlerId) :
    microCycle s (.op1 h) = .next (.done (s.takeFault .outOfBounds) none) := by
  rw [microCycle, op1Cycle, memRead_of_ge s hp]

theorem microCycle_op1_of_lt {s : State} (hp : s.pc.toNat + 1 < 256) (h : HandlerId) :
    microCycle s (.op1 h) = .next (.goto (if readsOp2 h then .op2 h (s.mem.read (s.pc.toNat + 1))
      else .exec (h.instr (s.mem.read (s.pc.toNat + 1)) 0))) := by
  rw [microCycle, op1Cycle, memRead_of_lt s hp]

theorem microCycle_op2_of_ge {s : State} (hp : 256 ≤ s.pc.toNat + 2) (h : HandlerId) (b1 : Byte) :
    microCycle s (.op2 h b1) = .next (.done (s.takeFault .outOfBounds) none) := by
  rw [microCycle, op2Cycle, memRead_of_ge s hp]

theorem microCycle_op2_of_lt {s : State} (hp : s.pc.toNat + 2 < 256) (h : HandlerId) (b1 : Byte) :
    microCycle s (.op2 h b1) = .next (.goto (.exec (h.instr b1 (s.mem.read (s.pc.toNat + 2))))) := by
  rw [microCycle, op2Cycle, memRead_of_lt s hp]

/-- A step that faults in its first cycle, past memory or on an invalid opcode (R102, R103, R270). -/
theorem endsIn_of_fetchDecode_error {s t : State} {c : HaltCause} (hr : s.running = true)
    (hf : fetchDecode s = .error c) (hstep : step s = .next t) : EndsIn s t .fetch (stepCycles s) := by
  rw [step_of_fetchDecode_error hr hf] at hstep
  cases hstep
  obtain ⟨hp, hf'⟩ | ⟨hp, hrom, hf'⟩ | ⟨_, -, -, _, _, hf', -⟩ := fetchDecode_cases s <;> rw [hf'] at hf <;> cases hf
  · rw [stepCycles_of_ge hp]
    exact .fault (microCycle_fetch_of_ge hp)
  · rw [stepCycles_of_invalid hp hrom]
    exact .fault (microCycle_fetch_of_invalid hp hrom)

section
variable {h : HandlerId} {s t : State} (hr : s.running = true) (hp : s.pc.toNat < 256)
  (hopc : s.mem.read s.pc.toNat = h.row.opcode) (hstep : step s = .next t)
include hr hp hopc hstep

/-- FETCH and EXEC, where the handler reads no operand. -/
theorem endsIn_of_no_operand (h1 : readsOp1 h s = false) : EndsIn s t .fetch (stepCycles s) := by
  have h1' : ¬ readsOp1 h s = true := ne_true_of_eq_false h1
  have hfetch := microCycle_fetch_of_opcode hp hopc
  rw [if_neg h1'] at hfetch
  rw [step_of_opcode_of_reads hr hp hopc (absurd · h1') fun h2 => absurd (readsOp1_of_readsOp2 h2 s) h1'] at hstep
  rw [stepCycles_of_no_operand hp hopc h1]
  exact .goto hfetch (.exec hstep)

/-- FETCH, OP1 and EXEC, where the handler reads op1 alone; it ends in OP1 where op1 is no address. -/
theorem endsIn_of_one_operand (h1 : readsOp1 h s = true) (h2 : readsOp2 h = false) :
    EndsIn s t .fetch (stepCycles s) := by
  have h2' : ¬ readsOp2 h = true := ne_true_of_eq_false h2
  have hfetch := microCycle_fetch_of_opcode hp hopc
  rw [if_pos h1] at hfetch
  rw [stepCycles_of_one_operand hp hopc h1 h2]
  split
  case isTrue hlt1 =>
    have hop1 := microCycle_op1_of_lt hlt1 h
    rw [if_neg h2'] at hop1
    rw [step_of_opcode_of_reads hr hp hopc (fun _ => (windowByte_of_lt hlt1).symm) (absurd · h2')] at hstep
    exact .goto hfetch (.goto hop1 (.exec hstep))
  case isFalse hge1 =>
    have hge1 : 256 ≤ s.pc.toNat + 1 := Nat.le_of_not_lt hge1
    rw [step_of_unreadable_operand hr hp hopc (.inl ⟨h1, hge1⟩)] at hstep
    cases hstep
    exact .goto hfetch (.fault (microCycle_op1_of_ge hge1 h))

/-- FETCH, OP1, OP2 and EXEC, where the handler reads both operands; it ends in the first whose operand is no
address. -/
theorem endsIn_of_two_operands (h2 : readsOp2 h = true) : EndsIn s t .fetch (stepCycles s) := by
  have hfetch := microCycle_fetch_of_opcode hp hopc
  rw [if_pos (readsOp1_of_readsOp2 h2 s)] at hfetch
  rw [stepCycles_of_two_operands hp hopc h2]
  by_cases hlt1 : s.pc.toNat + 1 < 256
  · have hop1 := microCycle_op1_of_lt hlt1 h
    rw [if_pos h2] at hop1
    rw [if_pos hlt1]
    split
    case isTrue hlt2 =>
      rw [step_of_opcode_of_reads hr hp hopc (fun _ => (windowByte_of_lt hlt1).symm)
        fun _ => (windowByte_of_lt hlt2).symm] at hstep
      exact .goto hfetch (.goto hop1 (.goto (microCycle_op2_of_lt hlt2 h _) (.exec hstep)))
    case isFalse hge2 =>
      have hge2 : 256 ≤ s.pc.toNat + 2 := Nat.le_of_not_lt hge2
      rw [step_of_unreadable_operand hr hp hopc (.inr ⟨h2, hge2⟩)] at hstep
      cases hstep
      exact .goto hfetch (.goto hop1 (.fault (microCycle_op2_of_ge hge2 h _)))
  · have hge1 : 256 ≤ s.pc.toNat + 1 := Nat.le_of_not_lt hlt1
    rw [step_of_unreadable_operand hr hp hopc (.inl ⟨readsOp1_of_readsOp2 h2 s, hge1⟩)] at hstep
    cases hstep
    rw [if_neg (by omega), if_neg hlt1]
    exact .goto hfetch (.fault (microCycle_op1_of_ge hge1 h))

end

/-- The sequencer makes every step of a running machine, in as many cycles as `stepCycles` counts (R270). -/
theorem endsIn_stepCycles_of_step {s t : State} (hr : s.running = true) (hstep : step s = .next t) :
    EndsIn s t .fetch (stepCycles s) := by
  obtain ⟨-, hf⟩ | ⟨-, -, hf⟩ | ⟨h, hp, hrom, -⟩ := fetchDecode_cases s
  · exact endsIn_of_fetchDecode_error hr hf hstep
  · exact endsIn_of_fetchDecode_error hr hf hstep
  · have hopc := ((dispatchRom_eq_some_iff _ _).1 hrom).symm
    cases h1 : readsOp1 h s
    case false => exact endsIn_of_no_operand hr hp hopc hstep h1
    case true =>
      cases h2 : readsOp2 h
      case false => exact endsIn_of_one_operand hr hp hopc hstep h1 h2
      case true => exact endsIn_of_two_operands hr hp hopc hstep h2

/-! ### The clock edges of a step -/

/-- After a step the sequencer is idle, or in FETCH with the machine running (R237, log 13). -/
theorem ite_fetch_cases (run : Bool) (s : State) :
    (if run && s.running then Phase.fetch else .idle) = .idle ∨
      (if run && s.running then Phase.fetch else .idle) = .fetch ∧ s.running = true := by
  split
  · next hstart => exact .inr ⟨rfl, (Bool.and_eq_true_iff.1 hstart).2⟩
  · exact .inl rfl

section
variable {L : Launch} {p : Pins} {c : Clocked} (hrst : p.rst = false) (hphase : c.phase ≠ .idle)
include hrst hphase

/-- In a cycle of a step that goes on, the edge leaves the state alone and has an abort wait (R228, R270). -/
theorem exists_clockEdge_of_goto {q : Phase} (h : microCycle c.core c.phase = .next (.goto q)) :
    ∃ d, clockEdge L p c = .next d ∧ d.core = c.core ∧ d.phase = q ∧ d.abortPending = (c.abortPending || p.abort) :=
  ⟨⟨c.core, q, c.abortPending || p.abort, none, c.cycle + 1⟩,
    by rw [clockEdge, if_neg (ne_true_of_eq_false hrst), if_neg hphase, h], rfl, rfl, rfl⟩

/-- In the cycle that ends a step, the edge takes the state it leaves, stopped by an abort that waits or is asked for
(R228, R270). -/
theorem exists_clockEdge_of_done {t : State} {emitted : Option Byte}
    (h : microCycle c.core c.phase = .next (.done t emitted)) :
    ∃ d, clockEdge L p c = .next d ∧ d.core = (if c.abortPending || p.abort then hostAbort t else t) ∧
      d.abortPending = false ∧ d.outPort = emitted ∧ (d.phase = .idle ∨ d.phase = .fetch ∧ d.core.running = true) := by
  refine ⟨_, by rw [clockEdge, if_neg (ne_true_of_eq_false hrst), if_neg hphase, h], ?_, rfl, rfl,
    ite_fetch_cases p.run _⟩
  rw [Bool.or_comm]

end

theorem clockEdges_cons_of_next {L : Launch} {p : Pins} {c d : Clocked} (h : clockEdge L p c = .next d)
    (ps : List Pins) : clockEdges L (p :: ps) c = clockEdges L ps d := by
  rw [clockEdges, h]

/-- The edges of a step that ends in `n` cycles, by induction on them: the first `n - 1` leave the state alone and
collect what is asked of `abort`, and the last takes the step's state. -/
theorem EndsIn.clockEdges (L : Launch) {s t : State} {q : Phase} {n : Nat} (h : EndsIn s t q n) {c : Clocked}
    (hcore : c.core = s) (hphase : c.phase = q) {ps : List Pins} (hlen : ps.length = n)
    (hrst : ∀ p ∈ ps, p.rst = false) :
    (∀ k, k < ps.length → ∃ e, clockEdges L (ps.take k) c = .next e ∧ e.busy = true ∧ e.core = s) ∧
    ∃ d, clockEdges L ps c = .next d ∧
      d.core = (if c.abortPending || ps.any (fun p => p.abort) then hostAbort t else t) ∧
      d.abortPending = false ∧ t.output = s.output ++ d.outPort.toList ∧
      (d.phase = .idle ∨ d.phase = .fetch ∧ d.core.running = true) := by
  have hbusy : c.phase ≠ .idle := hphase ▸ h.ne_idle
  induction h generalizing c ps with
  | done hcycle hout =>
    subst hcore hphase
    obtain ⟨p, rfl⟩ := List.length_eq_one_iff.1 hlen
    obtain ⟨d, hedge, hd, hpending, rfl, hnext⟩ :=
      exists_clockEdge_of_done (L := L) (hrst p List.mem_cons_self) hbusy hcycle
    refine ⟨fun k hk => ?_, d, clockEdges_cons_of_next hedge [], by simpa using hd, hpending, hout, hnext⟩
    obtain rfl : k = 0 := Nat.lt_one_iff.1 hk
    exact ⟨c, rfl, c.busy_iff.2 hbusy, rfl⟩
  | goto hcycle hends ih =>
    subst hcore hphase
    obtain ⟨p, ps, rfl⟩ := List.exists_cons_of_length_eq_add_one hlen
    obtain ⟨c', hedge, hcore, rfl, hpending⟩ :=
      exists_clockEdge_of_goto (L := L) (hrst p List.mem_cons_self) hbusy hcycle
    obtain ⟨hbefore, d, hedges, hd, hend⟩ :=
      ih hcore rfl (Nat.succ.inj hlen) (fun p' hp' => hrst p' (List.mem_cons_of_mem p hp')) hends.ne_idle
    rw [hpending, Bool.or_assoc, ← List.any_cons] at hd
    refine ⟨fun k hk => ?_, d, (clockEdges_cons_of_next hedge ps).trans hedges, hd, hend⟩
    cases k with
    | zero => exact ⟨c, rfl, c.busy_iff.2 hbusy, rfl⟩
    | succ k =>
      rw [List.take_succ_cons, clockEdges_cons_of_next hedge]
      exact hbefore k (Nat.lt_of_succ_lt_succ hk)

/-- Settles O59: the sequencer makes the step in `stepCycles` cycles, and the edges follow the sequencer. -/
theorem theMicroSequenceRefinesTheStep : Obligations.TheMicroSequenceRefinesTheStep :=
  fun L _ _ _ hphase hr hstep hlen hrst => (endsIn_stepCycles_of_step hr hstep).clockEdges L rfl hphase hlen hrst

end Sys2Proof.Machine
end
